-- ==== Sys2Proof/Word.lean ====
section
/-! DEFINITION. The widths of CORE's values (00_scope.md R7, R10): XLEN = PCLEN = ARGLEN = 32,
OPLEN = 3, ILEN = OPLEN + ARGLEN = 35. -/

namespace Sys2Proof

/-- A 32-bit value: R, PC, the operand field (R7: XLEN, PCLEN, ARGLEN). `+` and `-` wrap modulo
`2^32` (R10). -/
abbrev Word := BitVec 32

/-- The 3-bit opcode field (R7: OPLEN). -/
abbrev Op := BitVec 3

/-- A 35-bit instruction word, `op` in bits 34..32 and `arg` in bits 31..0 (R7: ILEN; R70). -/
abbrev IWord := BitVec 35

end Sys2Proof
end

