-- ==== Sys2Proof/Machine/Flags.lean ====
section
/-! DEFINITION. CORE has no flags (R25). The one condition any instruction tests is computed from R. -/

namespace Sys2Proof.Machine

/-- `R != 0`, on all 32 bits (R25, R150). -/
def isNonZero (v : Word) : Bool := v != 0#32

end Sys2Proof.Machine
end

