-- ==== Sys2Proof/Machine/Operands.lean ====
section
/-! DEFINITION. What the operand field means and the one arithmetic operation. -/

namespace Sys2Proof.Machine

/-- The `Load` immediate: `arg`, with no extension, scaling or shift (R73). -/
def immediate (arg : Word) : Word := arg

/-- A jump target: `arg` as an absolute word index, not scaled and not relative (R74, R160). -/
def target (arg : Word) : Word := arg

/-- `(v - 1) mod 2^32`, two's-complement wrap and no trap (R136, R137). -/
def decrement (v : Word) : Word := v - 1#32

end Sys2Proof.Machine
end

