-- ==== Sys2Proof/Config.lean ====
section
/-! DEFINITION. The parameters of 00_scope.md R7 that are not widths. `N` and the ROM contents are
the construction-time program itself and stand with the state (log 1). -/

namespace Sys2Proof

/-- The largest program length, `2^32 - 1` (R7, D4): it makes `old_pc + 1` fit in 32 bits (R23). -/
def Config.maxProgramLength : Nat := 4294967295

/-- `R_INIT`, the value of `init_r` that `State.reset` takes. OPEN in R7, default 0.
DESIGN CHOICE (log 4): the spec's default. Reset with any other value is `resetTo`. -/
def Config.rInit : Word := 0#32

end Sys2Proof
end

