-- ==== Sys2Proof/Machine/State.lean ====
section
/-! DEFINITION. The state of CORE as plain data: the three registers of 10_state.md R20 and the
program ROM of 20_memory.md R50. -/

namespace Sys2Proof.Machine

/-- The run state held in ST (R28). -/
inductive RunState where
  /-- `0b00`: steps are accepted. -/
  | running
  /-- `0b01`, terminal: a `Halt` was executed. -/
  | halted
  /-- `0b10`, terminal: PC was outside `[0, N)` at step entry. -/
  | outOfRange
  /-- `0b11`, terminal: a word with opcode 6 or 7 was fetched (R184). -/
  | illegal
  deriving DecidableEq, Repr

/-- The one memory CORE reaches, the program ROM: word `k` is `ROM[k]` and the length is `N` (R50,
R7). An index at or beyond the length holds no word (R52). Log 2. -/
abbrev Memory := List IWord

/-- The form every ROM has: `N ≤ 2^32 - 1` (R7, D4). A list needs no further canonical form: equal
ROMs are equal lists. -/
def Memory.wf (m : Memory) : Bool := m.length ≤ Config.maxProgramLength

/-- The three registers alone, as a CORE with an external ROM holds them (R20, R8). -/
structure Regs where
  /-- PC, the word index of the next instruction (R21). -/
  pc : Word
  /-- R, the general register (R26). -/
  r : Word
  /-- ST, the run state (R28). -/
  st : RunState
  deriving DecidableEq, Repr

/-- The registers together with the ROM they run over. The ROM is a parameter of the step relation
(R20, R50), and `edgeOver` takes it so; it stands beside the registers here because the fixed
`exec` and `step` of the host's interface take one argument (log 1). -/
structure State where
  /-- PC, the word index of the next instruction (R21). -/
  pc : Word
  /-- R, the general register, read as signed two's complement (R26). -/
  r : Word
  /-- ST, the run state (R28). -/
  st : RunState
  /-- The program ROM; `N` is its length (R50). -/
  rom : Memory
  deriving DecidableEq, Repr

/-- The registers of a state. -/
def State.regs (s : State) : Regs := { pc := s.pc, r := s.r, st := s.st }

/-- Registers over a ROM. -/
def Regs.withRom (g : Regs) (m : Memory) : State := { pc := g.pc, r := g.r, st := g.st, rom := m }

/-- CORE has no fault: no exception transfers control, and the terminal outcomes are values of ST in
a next state (R183, R186, D28). So no step raises one, which is safe (log 19). -/
inductive Fault where
  deriving DecidableEq, Repr

/-- Why an instruction may be refused. -/
inductive Refusal where
  /-- Raised by `exec` alone, for an instruction that has no meaning yet, by its mnemonic. Safe: it
  stops where the hardware goes on. Every instruction has its meaning, so no arm raises it. -/
  | notModelled (mnemonic : String)
  deriving DecidableEq, Repr

/-- The machine right after reset with `R_INIT` and an empty ROM, `N = 0` (R32, R210; log 4, log 5). -/
def State.reset : State := { pc := 0#32, r := Config.rInit, st := .running, rom := [] }

end Sys2Proof.Machine
end

