-- ==== Sys2Proof/Syntax.lean ====
section
/-! DEFINITION. The decoded instruction: the closed sum type of 30_encoding.md R76, one constructor
per row of spec/opcode_table.json, each carrying only the data it needs. -/

namespace Sys2Proof

/-- The six instructions of CCB-STEP6 (R2, R72, R76). Every value of this type is a well-formed
instruction: the only bound the spec puts on an operand is its width of 32 bits (R73, R74). -/
inductive Instr where
  /-- `Nop` (R130). -/
  | nop
  /-- `Load imm` (R133). -/
  | load (imm : Word)
  /-- `Dec` (R136). -/
  | dec
  /-- `JumpIfNonZero target` (R150). -/
  | jumpIfNonZero (target : Word)
  /-- `Jump target` (R153). -/
  | jump (target : Word)
  /-- `Halt` (R156). -/
  | halt
  deriving DecidableEq, Repr

end Sys2Proof
end

