-- ==== Sys2Proof/Decode.lean ====
section
/-! DEFINITION. The instruction decoder and the canonical encoder (30_encoding.md R70 to R80). -/

namespace Sys2Proof

/-- `w[34:32]`, the opcode field (R70). -/
def opField (w : IWord) : Op := w.extractLsb' 32 3

/-- `w[31:0]`, the operand field (R70). -/
def argField (w : IWord) : Word := w.extractLsb' 0 32

/-- The two answers of the decoder: an instruction, or `Illegal` with the opcode that names none
(R76: `Instr + {Illegal}`). -/
inductive Decoded where
  /-- The word is this instruction. -/
  | instr (i : Instr)
  /-- The word's opcode is 6 or 7 (R79). -/
  | illegal (op : Op)
  deriving DecidableEq, Repr

/-- `decode` of R76, total on every 35-bit word and decided by `op` alone (R72). `arg` is dropped
for op 0, 2 and 5 (R75). The last arm holds the two values 6 and 7. -/
def decode (w : IWord) : Decoded :=
  match opField w with
  | 0b000#3 => .instr .nop
  | 0b001#3 => .instr (.load (argField w))
  | 0b010#3 => .instr .dec
  | 0b011#3 => .instr (.jumpIfNonZero (argField w))
  | 0b100#3 => .instr (.jump (argField w))
  | 0b101#3 => .instr .halt
  | op => .illegal op

/-- A word whose `op` names an instruction, 0 to 5 (R78, R79). -/
def legalWord (w : IWord) : Bool := (opField w).toNat ≤ 5

/-- The opcode of an instruction (R72). -/
def opcodeOf : Instr → Op
  | .nop => 0b000#3
  | .load _ => 0b001#3
  | .dec => 0b010#3
  | .jumpIfNonZero _ => 0b011#3
  | .jump _ => 0b100#3
  | .halt => 0b101#3

/-- The operand field of the canonical word: 0 where the operand is unused (R77). -/
def operandOf : Instr → Word
  | .nop => 0#32
  | .load imm => imm
  | .dec => 0#32
  | .jumpIfNonZero target => target
  | .jump target => target
  | .halt => 0#32

/-- `{op, arg}`, the word with these two fields (R9, R70). -/
def makeWord (op : Op) (arg : Word) : IWord := op ++ arg

/-- The canonical encoding of R77. -/
def encode (i : Instr) : IWord := makeWord (opcodeOf i) (operandOf i)

/-- An opcode whose operand is unused: `Nop`, `Dec`, `Halt` (R75). -/
def operandUnused (op : Op) : Bool := op = 0b000#3 || op = 0b010#3 || op = 0b101#3

/-- A canonical word: op in 0..5, and `arg = 0` when op is 0, 2 or 5 (R77). -/
def canonical (w : IWord) : Bool :=
  legalWord w && (!operandUnused (opField w) || argField w = 0#32)

/-- The instruction the decoder reads from a table word of `nbits` bits, bits above `nbits` being 0.
A word is indivisible, so no byte order enters (R57). A number that is no 35-bit word is refused
(log 16). -/
def decodeTableWord (nbits w : Nat) : Option Instr :=
  if w % 2 ^ nbits < 2 ^ 35 then
    match decode (BitVec.ofNat 35 (w % 2 ^ nbits)) with
    | .instr i => some i
    | .illegal _ => none
  else none

end Sys2Proof
end

