-- ==== Sys2Proof/WellFormed.lean ====
section
/-! DEFINITION. The construction-time check of a program (30_encoding.md R78; 00_scope.md R7).
A single instruction needs no check: see `Instr`. -/

namespace Sys2Proof

/-- Why a program is refused when the ROM is built. -/
inductive ProgramError where
  /-- The word at this index has op 6 or 7 (R78: "refuses it by index"). -/
  | illegalWord (index : Nat)
  /-- The program has this many words, more than `2^32 - 1` (R7, D4). -/
  | tooLong (length : Nat)
  deriving DecidableEq, Repr

/-- The index of the first word with op 6 or 7, counting from `start`. -/
def firstIllegalFrom (start : Nat) : List IWord → Option Nat
  | [] => none
  | w :: ws => if legalWord w then firstIllegalFrom (start + 1) ws else some start

/-- What refuses this program, if anything does. A non-zero unused operand does not (R78, R75). -/
def programError? (program : List IWord) : Option ProgramError :=
  match firstIllegalFrom 0 program with
  | some index => some (.illegalWord index)
  | none =>
    if program.length ≤ Config.maxProgramLength then none else some (.tooLong program.length)

/-- The well-formed programs: those that nothing refuses. -/
def wellFormedProgram (program : List IWord) : Bool := (programError? program).isNone

end Sys2Proof
end

