-- ==== Sys2Proof/Machine/Ops.lean ====
section
/-! DEFINITION. The named operations over the ROM and the registers, the end of a run, and reset. -/

namespace Sys2Proof.Machine

/-! ### The program ROM -/

/-- The address decoder: `rom_valid = (rom_addr < N)`, unsigned (R52). -/
def romHit (m : Memory) (a : Word) : Bool := a.toNat < m.length

/-- `FetchWord(a)`: the whole word at index `a`, none where the address decoder misses (R11, R53, R54). -/
def fetchWord (m : Memory) (a : Word) : Option IWord := m[a.toNat]?

/-- The ROM with `w` at index `i`, lengthened with canonical `Nop` words up to `i` if it is shorter.
This builds a ROM at construction; no step does it (R58). -/
def placeWord (m : Memory) (i : Nat) (w : IWord) : Memory :=
  if i < m.length then m.set i w else m ++ List.replicate (i - m.length) (encode .nop) ++ [w]

/-! ### The registers -/

/-- R (R11). -/
def readR (s : State) : Word := s.r

/-- `R <- v` (R11). -/
def writeR (v : Word) (s : State) : State := { s with r := v }

/-- `old_pc + 1`, the default next PC (R104). -/
def sequentialPc (s : State) : Word := s.pc + 1#32

/-- `PC <- next`, the commit of a step that continues (R106). ST stays as it is. -/
def commit (next : Word) (s : State) : State := { s with pc := next }

/-! ### Terminal outcomes -/

/-- A terminal state of ST (R15, R28). -/
def terminal : RunState → Bool
  | .running => false
  | .halted => true
  | .outOfRange => true
  | .illegal => true

/-- `stop`: the step writes ST and nothing else (R11, R186). This is all that stands in the place of
taking an exception: no state is saved, no handler is entered, and there is no return (R187). -/
def stop (t : RunState) (s : State) : State := { s with st := t }

/-! ### Reset and construction -/

/-- The registers after an edge with `rst = 1` (R32, R210). -/
def resetRegs (initR : Word) : Regs := { pc := 0#32, r := initR, st := .running }

/-- The effect of an edge with `rst = 1` (R210): the only way out of a terminal state (R29). -/
def resetTo (initR : Word) (s : State) : State := (resetRegs initR).withRom s.rom

/-- Construction and reset, R214: the program is fixed and checked, then CORE is reset with `init_r`.
An ill-formed program is refused and no run of it exists (R78). -/
def loadProgram (program : List IWord) (initR : Word) : Except ProgramError State :=
  match programError? program with
  | some e => .error e
  | none => .ok { pc := 0#32, r := initR, st := .running, rom := program }

end Sys2Proof.Machine
end

