-- ==== Sys2Proof/Machine/ControlTransfer.lean ====
section
/-! DEFINITION. `JumpIfNonZero`, `Jump` and `Halt` (42_control_transfer.md). Each runs after the
range check, the fetch and the decode of a step, in state RUNNING. -/

namespace Sys2Proof.Machine

/-- `JumpIfNonZero target` (R150), on R as at step entry. The target is not checked here (R159). -/
def execJumpIfNonZero (arg : Word) (s : State) : Host.Outcome State Fault Refusal :=
  .next (commit (if isNonZero (readR s) then target arg else sequentialPc s) s)

/-- `Jump target` (R153). The target is not checked here (R159). -/
def execJump (arg : Word) (s : State) : Host.Outcome State Fault Refusal :=
  .next (commit (target arg) s)

/-- `Halt` (R156): `ST <- HALTED`, PC and R not written (R108). -/
def execHalt (s : State) : Host.Outcome State Fault Refusal := .next (stop .halted s)

end Sys2Proof.Machine
end

