-- ==== Sys2Proof/Machine/RegisterOps.lean ====
section
/-! DEFINITION. `Nop`, `Load` and `Dec` (41_register_ops.md). Each runs after the range check, the
fetch and the decode of a step, in state RUNNING. -/

namespace Sys2Proof.Machine

/-- `Nop` (R130): `PC <- old_pc + 1`. -/
def execNop (s : State) : Host.Outcome State Fault Refusal := .next (commit (sequentialPc s) s)

/-- `Load imm` (R133): `R <- arg; PC <- old_pc + 1`. -/
def execLoad (imm : Word) (s : State) : Host.Outcome State Fault Refusal :=
  .next (commit (sequentialPc s) (writeR (immediate imm) s))

/-- `Dec` (R136): `R <- (R - 1) mod 2^32; PC <- old_pc + 1`. -/
def execDec (s : State) : Host.Outcome State Fault Refusal :=
  .next (commit (sequentialPc s) (writeR (decrement (readR s)) s))

end Sys2Proof.Machine
end

