-- ==== Sys2Proof/Machine/Dispatch.lean ====
section
/-! DEFINITION. The effect of a decoded instruction (40_step.md R105): one arm per instruction. -/

namespace Sys2Proof.Machine

def exec (i : Instr) (s : State) : Host.Outcome State Fault Refusal :=
  match i with
  | .nop => Sys2Proof.Machine.execNop s
  | .load imm => Sys2Proof.Machine.execLoad imm s
  | .dec => Sys2Proof.Machine.execDec s
  | .jumpIfNonZero t => Sys2Proof.Machine.execJumpIfNonZero t s
  | .jump t => Sys2Proof.Machine.execJump t s
  | .halt => Sys2Proof.Machine.execHalt s

end Sys2Proof.Machine
end

