-- ==== Sys2Proof/Machine/Edge.lean ====
section
/-! DEFINITION. One rising edge of `clk` with the levels the host drives on the input ports: reset,
a step, or nothing (10_state.md R33, R34, R38; 40_step.md R100 to R109; 70_reset_and_hazards.md R210). -/

namespace Sys2Proof.Machine

/-- The input ports as sampled at a rising edge (R34, R38). -/
structure Pins where
  /-- `rst`, synchronous reset, active high. -/
  rst : Bool
  /-- `init_r`, looked at only when `rst = 1`. -/
  initR : Word
  /-- `step_en`, the step request. -/
  stepEn : Bool
  deriving DecidableEq, Repr

/-- The levels by which the host asks for one step; `init_r` is not looked at. -/
def stepRequest : Pins := { rst := false, initR := 0#32, stepEn := true }

/-- A step happens at this edge: `rst = 0`, `step_en = 1` and `ST = RUNNING` (R100). -/
def stepHappens (p : Pins) (s : State) : Bool := !p.rst && p.stepEn && s.st = .running

/-- What a step does once the ROM has answered (R102 to R109): a miss is the failed range check
(R102), an illegal word stops (R184), an instruction has its effect (R105). -/
def executeFetched (answer : Option IWord) (s : State) : Host.Outcome State Fault Refusal :=
  match answer with
  | none => .next (stop .outOfRange s)
  | some w =>
    match decode w with
    | .instr i => exec i s
    | .illegal _ => .next (stop .illegal s)

/-- What an outcome leaves in the registers. -/
def onRegs : Host.Outcome State Fault Refusal → Host.Outcome Regs Fault Refusal
  | .next t => .next t.regs
  | .fault f => .fault f
  | .refused r => .refused r

/-- An outcome on the registers, over the ROM they were taken from. -/
def overRom (rom : Memory) : Host.Outcome Regs Fault Refusal → Host.Outcome State Fault Refusal
  | .next g => .next (g.withRom rom)
  | .fault f => .fault f
  | .refused r => .refused r

/-- THE STEP RELATION of R109: one rising edge, from the registers to the registers, with the ROM and
its length `N` as an argument and not as state (R20, R50). Reset has priority (R210); an edge without a
step keeps everything (R101); a step fetches at PC as at step entry (R103). -/
def edgeOver (rom : Memory) (p : Pins) (g : Regs) : Host.Outcome Regs Fault Refusal :=
  if p.rst then .next (resetRegs p.initR)
  else if stepHappens p (g.withRom rom) then
    onRegs (executeFetched (fetchWord rom g.pc) (g.withRom rom))
  else .next g

/-- One rising edge on a state, the pair of the registers and the ROM they run over: `edgeOver` with
that ROM as its argument (log 1). -/
def clockEdge (p : Pins) (s : State) : Host.Outcome State Fault Refusal :=
  overRom s.rom (edgeOver s.rom p s.regs)

/-- A sequence of edges, one after another (R62). -/
def clockEdges : List Pins → State → Host.Outcome State Fault Refusal
  | [], s => .next s
  | p :: ps, s =>
    match clockEdge p s with
    | .next t => clockEdges ps t
    | .fault f => .fault f
    | .refused r => .refused r

end Sys2Proof.Machine
end

