-- ==== Sys2Proof/Machine/Step.lean ====
section
/-! DEFINITION. The step as the host of this package calls it: an edge on which the host of CORE asks
for a step (40_step.md R100; log 8). -/

namespace Sys2Proof.Machine

/-- One step: the edge with `rst = 0` and `step_en = 1`. In a terminal state it changes nothing
(R101; log 7). -/
def step (s : State) : Host.Outcome State Fault Refusal := clockEdge stepRequest s

/-- `s` with the table word `w` in the ROM at PC and ST = RUNNING, so that the next step fetches and
runs it. It stands for construction, not for a move of the machine (R214; log 5). The word is not
checked: one with op 6 or 7 is what R79 calls a hardware ROM, and `Reached` has no run of it. No ROM reaches
index `2^32 - 1` (R7), so from that PC the word is placed at index 0 with PC there (log 15). -/
def State.withFetchWord (s : State) (nbits w : Nat) : State :=
  let word := BitVec.ofNat 35 (w % 2 ^ nbits)
  let at_ := if s.pc.toNat < Config.maxProgramLength then s.pc else 0#32
  { pc := at_, r := s.r, st := .running, rom := placeWord s.rom at_.toNat word }

end Sys2Proof.Machine
end

