-- ==== Sys2Proof/Machine/Assembler.lean ====
section
/-! DEFINITION. The assembler of 30_encoding.md R82 and R83 (D22): program text to ROM words. It has
no labels, directives or pseudo-instructions. The lexical details the rules leave open (blanks, blank
lines, leading zeros, case of hex digits) are this model's choices (log 13). -/

namespace Sys2Proof.Machine

/-- Why a text is refused. -/
inductive AsmError where
  /-- No mnemonic of R72, spelled so. -/
  | unknownMnemonic
  /-- `Load`, `JumpIfNonZero` or `Jump` without an operand. -/
  | operandMissing
  /-- `Nop`, `Dec` or `Halt` with an operand (R82). -/
  | operandUnexpected
  /-- The operand is neither ` literal` nor `(literal)`. -/
  | badOperand
  /-- The literal is neither a decimal integer nor a hex literal. -/
  | badLiteral
  /-- The literal's value is outside the operand's range (R82). -/
  | literalOutOfRange
  /-- A `[` without its `]` at the end. -/
  | unclosedList
  deriving DecidableEq, Repr

/-! ### Characters and pieces of text -/

/-- Space, tab, carriage return, line feed. -/
def isBlank (c : Char) : Bool := c = ' ' || c = '\t' || c = '\r' || c = '\n'

/-- A letter of a mnemonic. -/
def isLetter (c : Char) : Bool :=
  (65 ≤ c.toNat && c.toNat ≤ 90) || (97 ≤ c.toNat && c.toNat ≤ 122)

/-- The text without blanks at its two ends. -/
def trimBlanks (cs : List Char) : List Char :=
  ((cs.dropWhile isBlank).reverse.dropWhile isBlank).reverse

/-- The pieces between occurrences of `sep`; at least one. -/
def splitAtChar (sep : Char) : List Char → List (List Char)
  | [] => [[]]
  | c :: cs =>
    if c = sep then [] :: splitAtChar sep cs
    else
      match splitAtChar sep cs with
      | [] => [[c]]
      | piece :: pieces => (c :: piece) :: pieces

/-! ### Literals -/

/-- The value of a digit in this base (10 or 16). -/
def digitValue (base : Nat) (c : Char) : Option Nat :=
  let n := c.toNat
  let v :=
    if 48 ≤ n ∧ n ≤ 57 then n - 48
    else if 65 ≤ n ∧ n ≤ 70 then n - 55
    else if 97 ≤ n ∧ n ≤ 102 then n - 87
    else base
  if v < base then some v else none

/-- The value of digits read after a number with value `acc`. -/
def digitsFrom (base acc : Nat) : List Char → Option Nat
  | [] => some acc
  | c :: cs =>
    match digitValue base c with
    | some v => digitsFrom base (acc * base + v) cs
    | none => none

/-- The value of one or more digits. -/
def digits (base : Nat) (cs : List Char) : Option Nat :=
  match cs with
  | [] => none
  | c :: rest => digitsFrom base 0 (c :: rest)

/-- A literal: a decimal integer, or a hex literal that gives the bits directly (R82). -/
inductive Literal where
  | decimal (v : Int)
  | hex (v : Nat)
  deriving DecidableEq, Repr

/-- The literal this text is, if it is one. DESIGN CHOICE (log 13), where R82 says "a decimal integer"
and "a hex literal" and no more: `-` is the only sign and stands before a decimal alone, so `+3` and
`-0x1` are refused; no `_` groups digits; a hex literal begins with `0x`, not `0X`. -/
def literal (cs : List Char) : Option Literal :=
  match cs with
  | '0' :: 'x' :: ds => (digits 16 ds).map .hex
  | '-' :: ds => (digits 10 ds).map fun v => .decimal (-(v : Int))
  | ds => (digits 10 ds).map fun v => .decimal v

/-- A `Load` immediate: decimal in `[-2147483648, 2147483647]`, or hex of at most 32 bits (R82). -/
def immediateBits : Literal → Option Word
  | .decimal v => if -2147483648 ≤ v ∧ v ≤ 2147483647 then some (BitVec.ofInt 32 v) else none
  | .hex v => if v ≤ 0xFFFFFFFF then some (BitVec.ofNat 32 v) else none

/-- A jump target: decimal in `[0, 4294967295]`, or hex of at most 32 bits (R82). -/
def targetBits : Literal → Option Word
  | .decimal v => if 0 ≤ v ∧ v ≤ 4294967295 then some (BitVec.ofInt 32 v) else none
  | .hex v => if v ≤ 0xFFFFFFFF then some (BitVec.ofNat 32 v) else none

/-! ### Instructions -/

/-- What follows a mnemonic: nothing, or an operand written after a space or in parentheses (R82). -/
def operandText (rest : List Char) : Except AsmError (Option (List Char)) :=
  match rest with
  | [] => .ok none
  | '(' :: inner =>
    match inner.reverse with
    | ')' :: body => .ok (some body.reverse)
    | _ => .error .badOperand
  | c :: more => if isBlank c then .ok (some (trimBlanks more)) else .error .badOperand

/-- An operand's 32 bits, read by `bits`. -/
def operandBits (bits : Literal → Option Word) : Option (List Char) → Except AsmError Word
  | none => .error .operandMissing
  | some cs =>
    match literal cs with
    | none => .error .badLiteral
    | some l =>
      match bits l with
      | none => .error .literalOutOfRange
      | some v => .ok v

/-- An instruction without an operand: a written operand is refused (R82). -/
def plainInstr (i : Instr) : Option (List Char) → Except AsmError Instr
  | none => .ok i
  | some _ => .error .operandUnexpected

/-- The instruction with this mnemonic and this operand text. Mnemonics are case-sensitive (R82). -/
def instrOf (mnemonic : List Char) (operand : Option (List Char)) : Except AsmError Instr :=
  if mnemonic = "Nop".toList then plainInstr .nop operand
  else if mnemonic = "Load".toList then (operandBits immediateBits operand).map .load
  else if mnemonic = "Dec".toList then plainInstr .dec operand
  else if mnemonic = "JumpIfNonZero".toList then
    (operandBits targetBits operand).map .jumpIfNonZero
  else if mnemonic = "Jump".toList then (operandBits targetBits operand).map .jump
  else if mnemonic = "Halt".toList then plainInstr .halt operand
  else .error .unknownMnemonic

/-- One instruction of program text. -/
def parseInstr (text : List Char) : Except AsmError Instr :=
  let cs := trimBlanks text
  match operandText (cs.dropWhile isLetter) with
  | .error e => .error e
  | .ok operand => instrOf (cs.takeWhile isLetter) operand

/-! ### Programs -/

/-- The pieces of text that each hold one instruction: the items of a list in brackets, or the lines
that are not blank (R82). -/
def instrTexts (text : List Char) : Except AsmError (List (List Char)) :=
  match trimBlanks text with
  | '[' :: inner =>
    match inner.reverse with
    | ']' :: body =>
      if trimBlanks body = [] then .ok [] else .ok (splitAtChar ',' body.reverse)
    | _ => .error .unclosedList
  | cs => .ok ((splitAtChar '\n' cs).filter fun line => !line.all isBlank)

/-- Every piece as an instruction, in order; the first error refuses the text. -/
def parseAll : List (List Char) → Except AsmError (List Instr)
  | [] => .ok []
  | t :: ts =>
    match parseInstr t with
    | .error e => .error e
    | .ok i =>
      match parseAll ts with
      | .error e => .error e
      | .ok is => .ok (i :: is)

/-- The instructions of a program text. -/
def parseProgram (text : List Char) : Except AsmError (List Instr) :=
  match instrTexts text with
  | .error e => .error e
  | .ok ts => parseAll ts

/-- The ROM words of a program text: the instruction at position `k` goes to `ROM[k]`, and `N` is the
number of instructions. Only canonical words are emitted (R77, R82). -/
def assemble (text : List Char) : Except AsmError (List IWord) :=
  match parseProgram text with
  | .error e => .error e
  | .ok is => .ok (is.map encode)

end Sys2Proof.Machine
end

