-- ==== Sys2Proof/Machine/Ports.lean ====
section
/-! DEFINITION. The output ports that show the state (10_state.md R28, R30, R35, R36). -/

namespace Sys2Proof.Machine

/-- The 2-bit encoding of ST (R28). -/
def stCode : RunState → BitVec 2
  | .running => 0b00#2
  | .halted => 0b01#2
  | .outOfRange => 0b10#2
  | .illegal => 0b11#2

/-- The run state a 2-bit code stands for: all four are legal (R28). -/
def runStateOf (c : BitVec 2) : RunState :=
  match c with
  | 0b00#2 => .running
  | 0b01#2 => .halted
  | 0b10#2 => .outOfRange
  | _ => .illegal

/-- The status output ports (R36). -/
structure StatusPorts where
  st : BitVec 2
  pcOut : Word
  rOut : Word
  deriving DecidableEq, Repr

/-- The status outputs, valid in every cycle: ST, PC and R (R36). They are also the result of a run
(R113). -/
def statusPorts (s : State) : StatusPorts := { st := stCode s.st, pcOut := s.pc, rOut := s.r }

/-- `rom_addr`, equal to PC at all times (R35). -/
def romAddr (s : State) : Word := s.pc

/-- `rom_valid` of the built-in address decoder (R35, R52). -/
def romValid (s : State) : Bool := romHit s.rom (romAddr s)

/-- The outcomes of a step (R14, R30, R180). -/
inductive StepOutcome where
  | continue_
  | halted
  | outOfRange
  /-- Hardware only (R184). -/
  | illegal
  deriving DecidableEq, Repr

/-- The outcome of a step as a function of ST after it (R30, R180). -/
def outcomeOf : RunState → StepOutcome
  | .running => .continue_
  | .halted => .halted
  | .outOfRange => .outOfRange
  | .illegal => .illegal

end Sys2Proof.Machine
end

