-- ==== Sys2Proof/Machine/Datapath.lean ====
section
/-! DEFINITION. The block as hardware: the decoder's control outputs (30_encoding.md R81), the PC
control logic (40_step.md R111) and the register datapath with the ST update (R112). It takes
`rom_valid` and `rom_data` as inputs, so it is also a CORE whose ROM is external (00_scope.md R8). -/

namespace Sys2Proof.Machine

/-- `r_sel`: which value is written to R (R81). -/
inductive RSel where
  | imm
  | dec
  deriving DecidableEq, Repr

/-- `pc_sel`: how the next PC is chosen (R81). -/
inductive PcSel where
  | inc
  | cond
  | tgt
  | hold
  deriving DecidableEq, Repr

/-- The decoder's control outputs (R81). -/
structure Control where
  /-- `r_we`. -/
  rWe : Bool
  /-- `r_sel`; `none` where the table has `-` (log 12). -/
  rSel : Option RSel
  /-- `pc_sel`. -/
  pcSel : PcSel
  /-- `halt`. -/
  halt : Bool
  /-- `illegal`. -/
  illegal : Bool
  deriving DecidableEq, Repr

/-- The control table of R81. The last row is op 6 and 7. -/
def controlOf (op : Op) : Control :=
  match op with
  | 0b000#3 => { rWe := false, rSel := none, pcSel := .inc, halt := false, illegal := false }
  | 0b001#3 => { rWe := true, rSel := some .imm, pcSel := .inc, halt := false, illegal := false }
  | 0b010#3 => { rWe := true, rSel := some .dec, pcSel := .inc, halt := false, illegal := false }
  | 0b011#3 => { rWe := false, rSel := none, pcSel := .cond, halt := false, illegal := false }
  | 0b100#3 => { rWe := false, rSel := none, pcSel := .tgt, halt := false, illegal := false }
  | 0b101#3 => { rWe := false, rSel := none, pcSel := .hold, halt := true, illegal := false }
  | _ => { rWe := false, rSel := none, pcSel := .hold, halt := false, illegal := true }

/-- The next-PC multiplexer with its write enable, given that a step happens (R111). -/
def pcNext (c : Control) (valid : Bool) (arg r oldPc : Word) : Word :=
  let take := c.pcSel = .tgt || (c.pcSel = .cond && r != 0#32)
  let pcWe := valid && c.pcSel ≠ .hold
  if pcWe then (if take then arg else oldPc + 1#32) else oldPc

/-- The register multiplexer with its write enable, given that a step happens (R112). -/
def rNext (c : Control) (valid : Bool) (arg r : Word) : Word :=
  let rNew := if c.rSel = some .imm then arg else r - 1#32
  if valid && c.rWe then rNew else r

/-- The ST update, given that a step happens (R112). -/
def stNext (c : Control) (valid : Bool) : RunState :=
  if !valid then .outOfRange
  else if c.illegal then .illegal
  else if c.halt then .halted
  else .running

/-- One edge of the block over the ROM interface `rom_valid`, `rom_data` (R35, R111, R112, R210). -/
def datapathEdge (p : Pins) (valid : Bool) (data : IWord) (g : Regs) : Regs :=
  if p.rst then { pc := 0#32, r := p.initR, st := .running }
  else if p.stepEn = true ∧ g.st = .running then
    let c := controlOf (opField data)
    { pc := pcNext c valid (argField data) g.r g.pc
      r := rNext c valid (argField data) g.r
      st := stNext c valid }
  else g

end Sys2Proof.Machine
end

