-- ==== Sys2Proof/Machine/Trace.lean ====
section
/-! DEFINITION. The trace port (60_exceptions.md R195 to R197; 40_step.md R107; 30_encoding.md R84):
combinational outputs of the edge, no state (10_state.md R31). -/

namespace Sys2Proof.Machine

/-- `trace_kind`; the fourth code is never driven, so there is no value for it (R196, U6). -/
inductive TraceKind where
  /-- `0b00`: a committed step with `next = old_pc + 1`. -/
  | seq
  /-- `0b01`: a committed step with `next != old_pc + 1`. -/
  | branch
  /-- `0b10`: `Halt` executed. -/
  | halt
  deriving DecidableEq, Repr

/-- The encoding of `trace_kind` (R196). -/
def traceKindCode : TraceKind → BitVec 2
  | .seq => 0b00#2
  | .branch => 0b01#2
  | .halt => 0b10#2

/-- The trace outputs in a cycle with `trace_valid = 1` (R195). -/
structure TraceRecord where
  /-- `trace_pc`. -/
  pc : Word
  /-- `trace_op`. -/
  op : Op
  /-- `trace_operand`. -/
  operand : Word
  /-- `trace_r`. -/
  r : Word
  /-- `trace_next_pc`. -/
  nextPc : Word
  /-- `trace_kind`. -/
  kind : TraceKind
  deriving DecidableEq, Repr

/-- The classification of a step that fetched an instruction, from PC before it and the state after
it (R107, R108, R196). -/
def traceKindOf (oldPc : Word) (t : State) : TraceKind :=
  if t.st = .halted then .halt else if t.pc = oldPc + 1#32 then .seq else .branch

/-- The record of a step from `s` that fetched `w` and committed `t` (R195). -/
def traceRecordOf (s : State) (w : IWord) (t : State) : TraceRecord :=
  { pc := s.pc, op := opField w, operand := argField w, r := t.r, nextPc := t.pc
    kind := traceKindOf s.pc t }

/-- The record of a step once the ROM has answered: none for an out-of-range step and for an illegal
word (R102, R184, R195). -/
def traceFetched (answer : Option IWord) (s : State) : Option TraceRecord :=
  match answer with
  | none => none
  | some w =>
    if legalWord w then
      match executeFetched (some w) s with
      | .next t => some (traceRecordOf s w t)
      | .fault _ => none
      | .refused _ => none
    else none

/-- The trace port in the cycle of an edge; `none` is `trace_valid = 0`, in which the other trace
outputs carry no meaning (R195; log 10). -/
def tracePort (p : Pins) (s : State) : Option TraceRecord :=
  if stepHappens p s then traceFetched (fetchWord s.rom s.pc) s else none

/-- `trace_valid` (R37, R195). -/
def traceValid (p : Pins) (s : State) : Bool := (tracePort p s).isSome

/-- The mnemonic that `trace_op` carries (R72, R84). -/
def mnemonicOf (op : Op) : Option String :=
  match op with
  | 0b000#3 => some "Nop"
  | 0b001#3 => some "Load"
  | 0b010#3 => some "Dec"
  | 0b011#3 => some "JumpIfNonZero"
  | 0b100#3 => some "Jump"
  | 0b101#3 => some "Halt"
  | _ => none

end Sys2Proof.Machine
end

