-- ==== Sys2Proof/Machine/MultiCycle.lean ====
section
/-! DEFINITION. The multi-cycle realisation that 70_reset_and_hazards.md R222 gives as an example: a
registered ROM with a FETCH cycle and an EXECUTE cycle. It signals readiness by being in FETCH, which
is this model's choice for a realisation the spec leaves open (U8; log 14). -/

namespace Sys2Proof.Machine

/-- The cycle the realisation is in. -/
inductive Phase where
  /-- Ready for a step request. -/
  | fetch
  /-- The registered answer of the ROM: its word, or none where `rom_valid = 0`. -/
  | execute (answer : Option IWord)
  deriving DecidableEq, Repr

/-- The realisation's state: what CORE holds, and the phase. -/
structure TwoCycle where
  core : State
  phase : Phase
  deriving DecidableEq, Repr

/-- Ready for a new step (R222). -/
def twoCycleReady (c : TwoCycle) : Bool := c.phase = .fetch

/-- One clock edge. FETCH registers the ROM's answer for an accepted step request; EXECUTE commits
the step, whatever `step_en` is; reset wins in both. -/
def twoCycleEdge (p : Pins) (c : TwoCycle) : Host.Outcome TwoCycle Fault Refusal :=
  if p.rst then .next { core := resetTo p.initR c.core, phase := .fetch }
  else
    match c.phase with
    | .fetch =>
      if stepHappens p c.core then
        .next { c with phase := .execute (fetchWord c.core.rom c.core.pc) }
      else .next c
    | .execute answer =>
      match executeFetched answer c.core with
      | .next t => .next { core := t, phase := .fetch }
      | .fault f => .fault f
      | .refused r => .refused r

/-- The trace port of the realisation: the record appears in the EXECUTE cycle. -/
def twoCycleTrace (p : Pins) (c : TwoCycle) : Option TraceRecord :=
  match c.phase with
  | .fetch => none
  | .execute answer => if p.rst then none else traceFetched answer c.core

end Sys2Proof.Machine
end

