-- ==== Sys2Proof/Machine/Shared.lean ====
section
/-! DEFINITION. Several COREs reading one ROM, each with its own PC, R and ST (20_memory.md R67,
60_exceptions.md R193, D26). -/

namespace Sys2Proof.Machine

/-- One ROM and the registers of every CORE that reads it. -/
structure Shared where
  rom : Memory
  cores : List Regs
  deriving DecidableEq, Repr

/-- One edge of CORE number `k`; an index that is no CORE changes nothing. Log 18. -/
def sharedEdge (k : Nat) (p : Pins) (sys : Shared) : Host.Outcome Shared Fault Refusal :=
  match sys.cores[k]? with
  | none => .next sys
  | some g =>
    match edgeOver sys.rom p g with
    | .next h => .next { sys with cores := sys.cores.set k h }
    | .fault f => .fault f
    | .refused r => .refused r

end Sys2Proof.Machine
end

