-- ==== Sys2Proof/Machine/RomMachine.lean ====
section
/-! DEFINITION. CORE with its construction parameters as arguments (00_scope.md R7; 20_memory.md R50):
the program ROM with its length `N`, and `R_INIT`. The state is the three registers alone (10_state.md
R20), and a program that the construction check refuses gives no machine (30_encoding.md R78). -/

namespace Sys2Proof.Machine

/-- One step over a ROM: the edge with `rst = 0` and `step_en = 1` (R100). -/
def stepOver (rom : Memory) (g : Regs) : Host.Outcome Regs Fault Refusal := edgeOver rom stepRequest g

/-- The hardware over any ROM, also one no construction admits (R79): its state is PC, R and ST. -/
def romMachine (rom : Memory) (initR : Word) : Host.Core :=
  { State := Regs, Fault := Fault, Refusal := Refusal, step := stepOver rom, reset := resetRegs initR }

/-- Construction (R78, R214): the machine over an admitted program. An ill-formed one is refused, by
the index of its first illegal word, and no run of it exists. -/
def buildMachine (program : Memory) (initR : Word) : Except ProgramError Host.Core :=
  match programError? program with
  | some e => .error e
  | none => .ok (romMachine program initR)

end Sys2Proof.Machine
end

