-- ==== Sys2Proof/Safety.lean ====
section
/-! DEFINITION. What a run is, how it ends, and the properties of states that claims speak about
(40_step.md R113, R115; 70_reset_and_hazards.md R212, R214). -/

namespace Sys2Proof.Machine

/-- A run of an admitted program: it is well-formed, or no run of it exists (R78, D7); every run starts
from the state after a reset (R212, R214); the host then gives it edges, of any kind and in any
order (R39). -/
inductive Reached (program : Memory) : State → Prop where
  | reset (initR : Word) :
      wellFormedProgram program = true → Reached program ((resetRegs initR).withRom program)
  | edge {s t : State} (p : Pins) :
      Reached program s → clockEdge p s = .next t → Reached program t

/-- The run has ended (R113). -/
def Ended (s : State) : Prop := terminal s.st = true

/-- The program finished normally: a claim of that kind names HALTED (R115). -/
def EndedNormally (s : State) : Prop := s.st = .halted

/-- The ROM is admitted at construction (R78) and the hardware's ILLEGAL state is not reached. -/
def NeverIllegal (s : State) : Prop := wellFormedProgram s.rom = true ∧ s.st ≠ .illegal

/-- A terminal state tells its cause (R115): HALTED, a `Halt` at PC; OUT_OF_RANGE, PC outside the
program; ILLEGAL, an illegal word at PC. -/
def CauseAtPc (s : State) : Prop :=
  match s.st with
  | .running => True
  | .halted => ∃ w, fetchWord s.rom s.pc = some w ∧ decode w = .instr .halt
  | .outOfRange => s.rom.length ≤ s.pc.toNat
  | .illegal => ∃ w op, fetchWord s.rom s.pc = some w ∧ decode w = .illegal op

end Sys2Proof.Machine
end

