-- ==== Sys2Proof/Certificates/Slice0/Obligations.lean ====
section
/-! DEFINITION. The statements for the provers. Where the spec marks a rule `[decision: D<n>]` the
choice is the spec's own and a rule of it; where it marks `[derived: ...]` the statement is derived. -/

open Sys2Proof Sys2Proof.Machine

/-! ### The six instructions -/

/-- R130, whole. From every state `Nop` completes and writes PC alone, so R, ST and every word of the
ROM are left; in a step it does so for every operand field, with its trace record. -/
def Obligations.NopAdvancesPcAlone : Prop :=
  encode .nop = 0x000000000#35 ∧
  ∀ (s : State) (x : Word),
    exec .nop s = .next { s with pc := s.pc + 1#32 } ∧
    (s.st = .running → fetchWord s.rom s.pc = some (0b000#3 ++ x) →
      step s = .next { s with pc := s.pc + 1#32 } ∧
      tracePort stepRequest s = some
        { pc := s.pc, op := 0b000#3, operand := x, r := s.r, nextPc := s.pc + 1#32, kind := .seq })

/-- R133, whole. From every state and for every immediate `Load` completes: R holds the 32 bits of the
operand whatever it held, PC is the successor, ST and every word of the ROM are left. -/
def Obligations.LoadWritesItsImmediate : Prop :=
  ∀ (s : State) (imm : Word),
    encode (.load imm) = 0b001#3 ++ imm ∧
    exec (.load imm) s = .next { s with r := imm, pc := s.pc + 1#32 } ∧
    (s.st = .running → fetchWord s.rom s.pc = some (0b001#3 ++ imm) →
      step s = .next { s with r := imm, pc := s.pc + 1#32 } ∧
      tracePort stepRequest s = some
        { pc := s.pc, op := 0b001#3, operand := imm, r := imm, nextPc := s.pc + 1#32, kind := .seq })

/-- R136, whole. From every state `Dec` completes: R is R - 1 modulo `2^32`, with no trap, PC is the
successor, ST and every word of the ROM are left; the operand field does not matter. -/
def Obligations.DecSubtractsOneAndWraps : Prop :=
  encode .dec = 0x200000000#35 ∧
  ∀ (s : State) (x : Word),
    exec .dec s = .next { s with r := BitVec.ofNat 32 (s.r.toNat + (2 ^ 32 - 1)), pc := s.pc + 1#32 } ∧
    (s.st = .running → fetchWord s.rom s.pc = some (0b010#3 ++ x) →
      step s = .next { s with r := s.r - 1#32, pc := s.pc + 1#32 } ∧
      tracePort stepRequest s = some
        { pc := s.pc, op := 0b010#3, operand := x, r := s.r - 1#32, nextPc := s.pc + 1#32,
          kind := .seq })

/-- R137, whole. The signed reading of `Dec`: one less, but for `-2^31`, where it wraps (the spec's
decision D9); zero is not clamped. -/
def Obligations.DecSignedArithmeticLaw : Prop :=
  ∀ s : State, ∃ t, exec .dec s = .next t ∧
    t.r = s.r + 0xFFFFFFFF#32 ∧
    (-(2 ^ 31) < s.r.toInt → t.r.toInt = s.r.toInt - 1) ∧
    (s.r.toInt = -(2 ^ 31) → t.r.toInt = 2 ^ 31 - 1) ∧
    (s.r.toInt = 0 → t.r.toInt = -1)

/-- R150, whole. From every state and for every target `JumpIfNonZero` completes and writes PC alone:
the target iff R is not zero at entry, on all 32 bits, else the successor, also where the target is
outside the program. -/
def Obligations.JumpIfNonZeroTestsRAtEntry : Prop :=
  ∀ (s : State) (a : Word),
    encode (.jumpIfNonZero a) = 0b011#3 ++ a ∧
    (s.r ≠ 0#32 → exec (.jumpIfNonZero a) s = .next { s with pc := a }) ∧
    (s.r = 0#32 → exec (.jumpIfNonZero a) s = .next { s with pc := s.pc + 1#32 }) ∧
    (s.st = .running → fetchWord s.rom s.pc = some (0b011#3 ++ a) →
      ∃ next, (s.r ≠ 0#32 → next = a) ∧ (s.r = 0#32 → next = s.pc + 1#32) ∧
        step s = .next { s with pc := next } ∧
        tracePort stepRequest s = some
          { pc := s.pc, op := 0b011#3, operand := a, r := s.r, nextPc := next
            kind := if next = s.pc + 1#32 then .seq else .branch })

/-- R153, whole. From every state and for every target `Jump` completes and writes PC alone, whatever
R holds and also where the target is outside the program. -/
def Obligations.JumpSetsPcToItsTarget : Prop :=
  ∀ (s : State) (a : Word),
    encode (.jump a) = 0b100#3 ++ a ∧
    exec (.jump a) s = .next { s with pc := a } ∧
    (s.st = .running → fetchWord s.rom s.pc = some (0b100#3 ++ a) →
      step s = .next { s with pc := a } ∧
      tracePort stepRequest s = some
        { pc := s.pc, op := 0b100#3, operand := a, r := s.r, nextPc := a
          kind := if a = s.pc + 1#32 then .seq else .branch })

/-- R156, whole. From every state `Halt` completes and writes ST alone; PC stays at the `Halt`; no
later step happens. -/
def Obligations.HaltWritesStAlone : Prop :=
  encode .halt = 0x500000000#35 ∧
  ∀ (s : State) (x : Word),
    exec .halt s = .next { s with st := .halted } ∧
    (s.st = .running → fetchWord s.rom s.pc = some (0b101#3 ++ x) →
      step s = .next { s with st := .halted } ∧
      step { s with st := .halted } = .next { s with st := .halted } ∧
      tracePort stepRequest s = some
        { pc := s.pc, op := 0b101#3, operand := x, r := s.r, nextPc := s.pc, kind := .halt })

/-- The frame of R110, over all six instructions: `Load` and `Dec` alone write R, `Halt` alone writes
ST and does not write PC, and every word of the ROM reads as before. -/
def Obligations.InstructionFrame : Prop :=
  ∀ (i : Instr) (s t : State), exec i s = .next t →
    ((∀ imm, i ≠ .load imm) → i ≠ .dec → t.r = s.r) ∧
    (i ≠ .halt → t.st = s.st) ∧
    (i = .halt → t.pc = s.pc) ∧
    t.rom.length = s.rom.length ∧
    ∀ a, fetchWord t.rom a = fetchWord s.rom a

/-! ### Encoding and construction -/

/-- R72 with the operands of R73 and R74: the opcode map by mask and match; the other two opcodes name
no instruction. -/
def Obligations.OpcodeMapByMaskAndMatch : Prop :=
  ∀ w : IWord,
    (w &&& 0x700000000#35 = 0x000000000#35 → decode w = .instr .nop) ∧
    (w &&& 0x700000000#35 = 0x100000000#35 → decode w = .instr (.load (w.setWidth 32))) ∧
    (w &&& 0x700000000#35 = 0x200000000#35 → decode w = .instr .dec) ∧
    (w &&& 0x700000000#35 = 0x300000000#35 → decode w = .instr (.jumpIfNonZero (w.setWidth 32))) ∧
    (w &&& 0x700000000#35 = 0x400000000#35 → decode w = .instr (.jump (w.setWidth 32))) ∧
    (w &&& 0x700000000#35 = 0x500000000#35 → decode w = .instr .halt) ∧
    (w &&& 0x700000000#35 = 0x600000000#35 → decode w = .illegal 0b110#3) ∧
    (w &&& 0x700000000#35 = 0x700000000#35 → decode w = .illegal 0b111#3)

/-- R77, whole: the canonical words, the round trip for every instruction, the words that come back
unchanged, and that an assembler emits canonical words alone. -/
def Obligations.DecodeAndEncodeAgree : Prop :=
  (encode .nop = 0b000#3 ++ 0#32 ∧ (∀ imm, encode (.load imm) = 0b001#3 ++ imm) ∧
    encode .dec = 0b010#3 ++ 0#32 ∧ (∀ a, encode (.jumpIfNonZero a) = 0b011#3 ++ a) ∧
    (∀ a, encode (.jump a) = 0b100#3 ++ a) ∧ encode .halt = 0b101#3 ++ 0#32) ∧
  (∀ i, decode (encode i) = .instr i) ∧
  (∀ w : IWord, (∃ i, decode w = .instr i ∧ encode i = w) ↔
    ((opField w).toNat ≤ 5 ∧ (opField w = 0#3 ∨ opField w = 2#3 ∨ opField w = 5#3 →
      argField w = 0#32))) ∧
  (∀ text ws, assemble text = .ok ws → ∀ w ∈ ws, ∃ i, decode w = .instr i ∧ encode i = w)

/-- Words written out from 95_test_vectors.md 2.1, one or more for each instruction and for each illegal
opcode. -/
def Obligations.SpecWordsDecodeAsWritten : Prop :=
  decode 0x0DEADBEEF#35 = .instr .nop ∧
  decode 0x1FFFFFFFF#35 = .instr (.load 0xFFFFFFFF#32) ∧
  decode 0x200000001#35 = .instr .dec ∧
  decode 0x300000002#35 = .instr (.jumpIfNonZero 2#32) ∧
  decode 0x400000006#35 = .instr (.jump 6#32) ∧
  decode 0x5FFFFFFFF#35 = .instr .halt ∧
  decode 0x600000000#35 = .illegal 6#3 ∧
  decode 0x7FFFFFFFF#35 = .illegal 7#3

/-- R75: two words that differ in an unused operand alone decode to one instruction and execute
identically, from equal registers. -/
def Obligations.UnusedOperandNeverMatters : Prop :=
  ∀ (s u : State) (op : Op) (x y : Word), op = 0#3 ∨ op = 2#3 ∨ op = 5#3 →
    decode (op ++ x : IWord) = decode (op ++ y : IWord) ∧
    (s.regs = u.regs → fetchWord s.rom s.pc = some (op ++ x) → fetchWord u.rom u.pc = some (op ++ y) →
      ∃ t v, step s = .next t ∧ step u = .next v ∧ t.regs = v.regs)

/-- The construction check of R78: it refuses by the index of the first word with op 6 or 7, admits
every other program of an admitted length; a refused program gives no machine, is not loaded and has no
run. -/
def Obligations.ConstructionRefusesByIndex : Prop :=
  ∀ ws : List IWord,
    (∀ k, programError? ws = some (.illegalWord k) ↔
      (∃ w, ws[k]? = some w ∧ 5 < (opField w).toNat) ∧
      ∀ j w, j < k → ws[j]? = some w → (opField w).toNat ≤ 5) ∧
    (wellFormedProgram ws = true ↔
      (∀ w ∈ ws, (opField w).toNat ≤ 5) ∧ ws.length ≤ 2 ^ 32 - 1) ∧
    (∀ v, wellFormedProgram ws = false →
      ∃ e, loadProgram ws v = .error e ∧ buildMachine ws v = .error e ∧
        ∀ s, ¬ Reached ws s) ∧
    (∀ v, wellFormedProgram ws = true →
      loadProgram ws v = .ok { pc := 0#32, r := v, st := .running, rom := ws })

/-! ### Reset and edges without a step -/

/-- R32: after reset PC = 0, ST = RUNNING and R is `init_r`, whatever the state was. -/
def Obligations.ResetValues : Prop :=
  State.reset.pc = 0#32 ∧ State.reset.st = .running ∧
  ∀ (p : Pins) (s : State), p.rst = true → ∃ t, clockEdge p s = .next t ∧
    t.pc = 0#32 ∧ t.r = p.initR ∧ t.st = .running

/-- R210, whole: an edge with `rst = 1` writes the three registers whatever ST held, takes no notice
of `step_en`, performs no step and drives `trace_valid = 0`; the ROM is left. -/
def Obligations.ResetWinsOverStep : Prop :=
  ∀ (v : Word) (en : Bool) (s : State),
    clockEdge { rst := true, initR := v, stepEn := en } s =
      .next { pc := 0#32, r := v, st := .running, rom := s.rom } ∧
    tracePort { rst := true, initR := v, stepEn := en } s = none

/-- R101, whole: with `rst = 0` and no step, because `step_en = 0` or ST is terminal, nothing changes
and no trace record is driven. -/
def Obligations.EdgeWithoutStepChangesNothing : Prop :=
  ∀ (p : Pins) (s : State), p.rst = false → (p.stepEn = false ∨ terminal s.st = true) →
    clockEdge p s = .next s ∧ tracePort p s = none

/-- R187: however many edges the host gives, none without reset leaves a terminal state; a reset
does. -/
def Obligations.TerminalStatesLastUntilReset : Prop :=
  ∀ (ps : List Pins) (s : State), terminal s.st = true →
    ((∀ p ∈ ps, p.rst = false) → clockEdges ps s = .next s) ∧
    ∀ p, p.rst = true → ∃ t, clockEdges (ps ++ [p]) s = .next t ∧ t.st = .running

/-! ### The step -/

/-- R109, whole: the step for an edge with `rst = 0`, case by case, with its trace record. In each case
the next state is given whole, so the step is total. -/
def Obligations.StepIsTheFunctionOfR109 : Prop :=
  ∀ (p : Pins) (s : State), p.rst = false →
    ((p.stepEn = false ∨ s.st ≠ .running) → clockEdge p s = .next s ∧ tracePort p s = none) ∧
    (p.stepEn = true → s.st = .running →
      (s.rom.length ≤ s.pc.toNat →
        clockEdge p s = .next { s with st := .outOfRange } ∧ tracePort p s = none) ∧
      ∀ (op : Op) (arg : Word), s.rom[s.pc.toNat]? = some (op ++ arg) →
        (op = 6#3 ∨ op = 7#3 →
          clockEdge p s = .next { s with st := .illegal } ∧ tracePort p s = none) ∧
        (op = 5#3 →
          clockEdge p s = .next { s with st := .halted } ∧
          tracePort p s = some
            { pc := s.pc, op := op, operand := arg, r := s.r, nextPc := s.pc, kind := .halt }) ∧
        (op.toNat ≤ 4 → ∃ next r,
          next = (if op = 4#3 ∨ (op = 3#3 ∧ s.r ≠ 0#32) then arg else s.pc + 1#32) ∧
          r = (if op = 1#3 then arg else if op = 2#3 then s.r - 1#32 else s.r) ∧
          clockEdge p s = .next { s with pc := next, r := r } ∧
          tracePort p s = some
            { pc := s.pc, op := op, operand := arg, r := r, nextPc := next
              kind := if next = s.pc + 1#32 then .seq else .branch }))

/-- A step runs the decoded instruction (R103, R105): in state RUNNING, when the word at PC decodes to
`i`, the step is `exec i` and nothing around it; a step never faults and is never refused. -/
def Obligations.StepRunsTheDecodedInstruction : Prop :=
  (∀ (s : State) (w : IWord) (i : Instr), s.st = .running → fetchWord s.rom s.pc = some w →
    decode w = .instr i → step s = exec i s) ∧
  ∀ s : State, ∃ t, step s = .next t

/-- A table word placed for the next step is the instruction that step runs. The placement is the
model's own (log 15), as is how a table word is read (log 16). -/
def Obligations.PlacedTableWordIsRunNext : Prop :=
  ∀ (s : State) (nbits w : Nat) (i : Instr), decodeTableWord nbits w = some i →
    step (s.withFetchWord nbits w) = exec i (s.withFetchWord nbits w) ∧
    (s.rom.wf = true → (s.withFetchWord nbits w).rom.wf = true) ∧
    (wellFormedProgram s.rom = true → wellFormedProgram (s.withFetchWord nbits w).rom = true)

/-- R182, whole: the step ends in OUT_OF_RANGE iff PC is at or beyond `N` at entry, PC and R are kept
and nothing is traced; PC gets there by a committed target, by a sequential advance from `N - 1`, or
at reset with `N = 0`. -/
def Obligations.OutOfRangeCauseAndWays : Prop :=
  (∀ s : State, s.st = .running →
    ((∃ t, step s = .next t ∧ t.st = .outOfRange) ↔ s.rom.length ≤ s.pc.toNat) ∧
    (s.rom.length ≤ s.pc.toNat →
      step s = .next { s with st := .outOfRange } ∧ tracePort stepRequest s = none)) ∧
  (∀ s t : State, s.st = .running → s.pc.toNat < s.rom.length → step s = .next t →
    t.st = .running → t.rom.length ≤ t.pc.toNat →
    ∃ w i, fetchWord s.rom s.pc = some w ∧ decode w = .instr i ∧
      ((i = .jump t.pc ∨ (i = .jumpIfNonZero t.pc ∧ s.r ≠ 0#32)) ∨
        (s.pc.toNat + 1 = s.rom.length ∧ t.pc = s.pc + 1#32 ∧
          (i = .nop ∨ (∃ imm, i = .load imm) ∨ i = .dec ∨
            ∃ a, i = .jumpIfNonZero a ∧ s.r = 0#32)))) ∧
  (∀ v : Word, step { pc := 0#32, r := v, st := .running, rom := [] } =
    .next { pc := 0#32, r := v, st := .outOfRange, rom := [] })

/-- R159, whole: a target at or beyond `N` is committed with outcome Continue, and the next step finds
it, with PC still holding the target. -/
def Obligations.FarTargetFoundOneStepLater : Prop :=
  ∀ (s : State) (w : IWord) (a : Word), s.st = .running → fetchWord s.rom s.pc = some w →
    decode w = .instr (.jump a) ∨ (decode w = .instr (.jumpIfNonZero a) ∧ s.r ≠ 0#32) →
    s.rom.length ≤ a.toNat →
    step s = .next { s with pc := a } ∧
    step { s with pc := a } = .next { s with pc := a, st := .outOfRange }

/-- R79: op 6 and 7 name no instruction and do not occur in a well-formed ROM; delivered all the same,
the step ends in ILLEGAL without writing PC or R, and untraced (R184). -/
def Obligations.IllegalOpcodeStopsTheStep : Prop :=
  ∀ (op : Op) (x : Word), op = 6#3 ∨ op = 7#3 →
    (∀ i, decode (op ++ x : IWord) ≠ .instr i) ∧
    (∀ ws : List IWord, (op ++ x : IWord) ∈ ws → wellFormedProgram ws = false) ∧
    ∀ s : State, s.st = .running → fetchWord s.rom s.pc = some (op ++ x) →
      step s = .next { s with st := .illegal } ∧ tracePort stepRequest s = none

/-- R185, whole: at most one outcome, decided by the first check that applies. -/
def Obligations.OutcomePriority : Prop :=
  ∀ (p : Pins) (s t : State), clockEdge p s = .next t →
    if p.rst = true ∨ p.stepEn = false ∨ terminal s.st = true then
      tracePort p s = none ∧ (p.rst = false → t = s)
    else if s.rom.length ≤ s.pc.toNat then outcomeOf t.st = .outOfRange
    else ∃ w, fetchWord s.rom s.pc = some w ∧ outcomeOf t.st =
      if opField w = 6#3 ∨ opField w = 7#3 then .illegal
      else if opField w = 5#3 then .halted
      else .continue_

/-- R29, whole: the transitions of ST. An edge without a step and without reset makes none. -/
def Obligations.OnlyListedStTransitions : Prop :=
  ∀ (p : Pins) (s t : State), clockEdge p s = .next t →
    (p.rst = true ∧ t.st = .running) ∨
    (p.rst = false ∧ stepHappens p s = false ∧ t = s) ∨
    (stepHappens p s = true ∧ s.st = .running ∧
      ((t.st = .outOfRange ∧ s.rom.length ≤ s.pc.toNat) ∨
        ∃ w, fetchWord s.rom s.pc = some w ∧
          ((t.st = .running ∧ (opField w).toNat ≤ 4) ∨
            (t.st = .halted ∧ opField w = 5#3) ∨
            (t.st = .illegal ∧ (opField w = 6#3 ∨ opField w = 7#3)))))

/-- R22, whole: reset and a step alone write PC; a step that continues writes the successor, or the
target for `Jump` and a taken `JumpIfNonZero`; a step that ends in a terminal state leaves it. -/
def Obligations.PcWrittenByStepAndResetAlone : Prop :=
  ∀ (p : Pins) (s t : State), clockEdge p s = .next t →
    (p.rst = true → t.pc = 0#32) ∧
    (p.rst = false → stepHappens p s = false → t.pc = s.pc) ∧
    (stepHappens p s = true → t.st ≠ .running → t.pc = s.pc) ∧
    (stepHappens p s = true → t.st = .running → ∃ w i,
      fetchWord s.rom s.pc = some w ∧ decode w = .instr i ∧
      ((∀ a, i = .jump a ∨ (i = .jumpIfNonZero a ∧ s.r ≠ 0#32) → t.pc = a) ∧
        ((∀ a, i ≠ .jump a ∧ (i = .jumpIfNonZero a → s.r = 0#32)) → t.pc = s.pc + 1#32)))

/-- The derivation of R23: over a ROM of an admitted length the successor of an index inside the
program is one more as a number, so PC never wraps. -/
def Obligations.PcNeverWraps : Prop :=
  ∀ (s t : State), s.rom.wf = true → s.st = .running → step s = .next t →
    t.pc = s.pc ∨ t.pc.toNat = s.pc.toNat + 1 ∨
    ∃ w a, fetchWord s.rom s.pc = some w ∧
      (decode w = .instr (.jump a) ∨ decode w = .instr (.jumpIfNonZero a)) ∧ t.pc = a

/-- The precision of R186: a step that ends in a terminal state writes ST alone. -/
def Obligations.TerminalOutcomeIsPrecise : Prop :=
  ∀ s t : State, step s = .next t → t.st ≠ .running → t = { s with st := t.st }

/-- R58, with R40: no sequence of edges changes the ROM or its length. -/
def Obligations.RomIsNeverWritten : Prop :=
  ∀ (ps : List Pins) (s t : State), clockEdges ps s = .next t →
    t.rom.length = s.rom.length ∧ ∀ a, fetchWord t.rom a = fetchWord s.rom a

/-- R50: the step relation takes the ROM and its length as an argument. Every edge on a state is that
relation over the state's ROM, which it leaves; and the machine over a ROM, whose state is the three
registers alone, runs in any number of steps as the host's machine does from those registers. That the
host's machine holds the ROM beside the registers is this model's choice (log 1). -/
def Obligations.RomIsAnArgumentOfTheStep : Prop :=
  (∀ (p : Pins) (s t : State), clockEdge p s = .next t ↔
    edgeOver s.rom p s.regs = .next t.regs ∧ t.rom = s.rom) ∧
  ∀ (rom : Memory) (v : Word) (k : Nat) (g : Regs), ∃ h : Regs,
    Host.Core.run (romMachine rom v) k g = .next h ∧
    Host.Core.run Sys2Proof.core k (g.withRom rom) = .next (h.withRom rom)

/-- R103: the ROM is read at the entry PC only. Two states with equal registers and the same word, or
the same miss, at PC go to equal registers and drive the same trace. -/
def Obligations.OnlyTheFetchedWordMatters : Prop :=
  ∀ (p : Pins) (s u : State), s.regs = u.regs → fetchWord s.rom s.pc = fetchWord u.rom u.pc →
    ∃ t v, clockEdge p s = .next t ∧ clockEdge p u = .next v ∧ t.regs = v.regs ∧
      tracePort p s = tracePort p u

/-! ### Invariants -/

/-- With the construction check of R78, the hardware's ILLEGAL state is not reached (R184): every edge,
and every step, keeps a well-formed ROM and a ST that is not ILLEGAL. -/
def Obligations.EveryEdgeKeepsNeverIllegal : Prop :=
  (∀ (p : Pins) (s t : State), NeverIllegal s → clockEdge p s = .next t → NeverIllegal t) ∧
  ∀ s t : State, NeverIllegal s → step s = .next t → NeverIllegal t

/-- What the end of a run says (R115): every edge, and every step, keeps that a terminal ST tells its
cause at PC. -/
def Obligations.EveryEdgeKeepsCauseAtPc : Prop :=
  (∀ (p : Pins) (s t : State), CauseAtPc s → clockEdge p s = .next t → CauseAtPc t) ∧
  ∀ s t : State, CauseAtPc s → step s = .next t → CauseAtPc t

/-- Both invariants, and the form of the ROM, hold after reset and after every load. That `State.reset`
takes `R_INIT` at the spec's default 0 and an empty ROM is this model's choice (log 4, log 5). -/
def Obligations.ResetMeetsTheInvariants : Prop :=
  (State.reset.r = 0#32 ∧ State.reset.rom = [] ∧ State.reset.rom.wf = true ∧ NeverIllegal State.reset ∧ CauseAtPc State.reset) ∧
  ∀ (ws : List IWord) (v : Word) (s : State), loadProgram ws v = .ok s →
    s.rom.wf = true ∧ NeverIllegal s ∧ CauseAtPc s

/-- Every state of every run of an admitted ROM, under any edges the host gives: the ROM is the one
built, ST is not ILLEGAL, and a terminal ST tells its cause (R58, R78, R115). -/
def Obligations.RunsOfAdmittedRoms : Prop :=
  ∀ (rom : Memory) (s : State), wellFormedProgram rom = true → Reached rom s →
    s.rom = rom ∧ s.st ≠ .illegal ∧ CauseAtPc s

/-! ### The block as hardware -/

/-- R111 and R112 give the step of R109: over any ROM interface that answers as R52 and R53 say, built
in or external (R8), the multiplexers and write enables compute the edge, for every input. -/
def Obligations.DatapathComputesTheEdge : Prop :=
  ∀ (p : Pins) (s : State) (valid : Bool) (data : IWord),
    (valid = true ↔ s.pc.toNat < s.rom.length) →
    (valid = true → s.rom[s.pc.toNat]? = some data) →
    clockEdge p s = .next ((datapathEdge p valid data s.regs).withRom s.rom)

/-- R53: with `rom_valid = 1` the word read is `ROM[rom_addr]`; with `rom_valid = 0` the value on
`rom_data` is not used and a step ends in OUT_OF_RANGE. -/
def Obligations.RomDataUnusedOnMiss : Prop :=
  (∀ s : State, romValid s = true → fetchWord s.rom (romAddr s) = s.rom[s.pc.toNat]? ∧
    (fetchWord s.rom (romAddr s)).isSome = true) ∧
  (∀ (p : Pins) (g : Regs) (d e : IWord), datapathEdge p false d g = datapathEdge p false e g) ∧
  (∀ (p : Pins) (g : Regs) (d : IWord), p.rst = false → p.stepEn = true → g.st = .running →
    datapathEdge p false d g = { g with st := .outOfRange })

/-- R52: the address decoder hits below `N` and misses at and beyond it; a miss selects no word, and
with `N = 0` nothing hits. -/
def Obligations.AddressDecoderHitsBelowN : Prop :=
  ∀ (m : Memory) (a : Word),
    (romHit m a = true ↔ a.toNat < m.length) ∧
    (m.length ≤ a.toNat → fetchWord m a = none) ∧
    (∀ h : a.toNat < m.length, fetchWord m a = some m[a.toNat]) ∧
    (m = [] → romHit m a = false)

/-- R36, with the codes of R28: the status outputs are ST, PC and R in every state, and the four codes
tell the four run states apart. -/
def Obligations.StatusPortsShowTheRegisters : Prop :=
  (∀ s : State, statusPorts s = { st := stCode s.st, pcOut := s.pc, rOut := s.r }) ∧
  stCode .running = 0#2 ∧ stCode .halted = 1#2 ∧ stCode .outOfRange = 2#2 ∧ stCode .illegal = 3#2 ∧
  (∀ x, runStateOf (stCode x) = x) ∧ (∀ c, stCode (runStateOf c) = c) ∧
  ∀ s t : State, statusPorts s = statusPorts t ↔ s.regs = t.regs

/-- R195 and R196: `trace_valid = 1` iff a step happens and fetches op 0 to 5; the record describes
the state the edge commits. -/
def Obligations.TraceRecordsTheCommittedStep : Prop :=
  (∀ (p : Pins) (s : State), traceValid p s = true ↔
    stepHappens p s = true ∧ ∃ w, fetchWord s.rom s.pc = some w ∧ (opField w).toNat ≤ 5) ∧
  (∀ (p : Pins) (s t : State) (w : IWord) (e : TraceRecord), clockEdge p s = .next t →
    fetchWord s.rom s.pc = some w → tracePort p s = some e →
    e.pc = s.pc ∧ e.op = opField w ∧ e.operand = argField w ∧ e.r = t.r ∧ e.nextPc = t.pc ∧
    (traceKindCode e.kind = 0b10#2 ↔ opField w = 5#3) ∧
    (traceKindCode e.kind = 0b00#2 ↔ opField w ≠ 5#3 ∧ t.pc = s.pc + 1#32) ∧
    (traceKindCode e.kind = 0b01#2 ↔ opField w ≠ 5#3 ∧ t.pc ≠ s.pc + 1#32)) ∧
  ∀ k, traceKindCode k ≠ 0b11#2

/-- R222 for the FETCH and EXECUTE realisation, whose readiness signal is this model's choice (log 14):
an accepted request takes two edges, the first shows the registers from before and no trace, the second
commits the state and the trace record of the one-edge step, or, if it is a reset, resets untraced in its
place. When ready, an edge with no request does as CORE does; in either phase a reset edge resets CORE,
untraced, and leaves it ready. -/
def Obligations.TwoCycleRealisationIsStepEquivalent : Prop :=
  (∀ c : TwoCycle, twoCycleReady c = true →
    (∀ p : Pins, stepHappens p c.core = true → ∃ t d,
      clockEdge p c.core = .next t ∧
      twoCycleEdge p c = .next d ∧ d.core = c.core ∧ twoCycleTrace p c = none ∧
      twoCycleReady d = false ∧
      (∀ q : Pins, q.rst = false →
        twoCycleEdge q d = .next { core := t, phase := .fetch } ∧
        twoCycleTrace q d = tracePort p c.core) ∧
      ∀ q : Pins, q.rst = true →
        twoCycleEdge q d = .next { core := resetTo q.initR c.core, phase := .fetch } ∧
        twoCycleTrace q d = none) ∧
    ∀ p : Pins, stepHappens p c.core = false → ∃ t, clockEdge p c.core = .next t ∧
      twoCycleEdge p c = .next { core := t, phase := .fetch } ∧ twoCycleTrace p c = none) ∧
  ∀ (c : TwoCycle) (q : Pins), q.rst = true →
    twoCycleEdge q c = .next { core := resetTo q.initR c.core, phase := .fetch } ∧
    twoCycleTrace q c = none

/-- R67: COREs that share a ROM do not interact. An edge of one leaves the ROM and the registers of
every other, does to its own what it would do alone, and edges of two of them commute. One edge at a
time is this model's choice (log 18). -/
def Obligations.SharingCoresDoNotInteract : Prop :=
  ∀ (sys : Shared) (j k : Nat) (p q : Pins), j ≠ k → ∃ a b c,
    sharedEdge j p sys = .next a ∧ a.rom = sys.rom ∧ a.cores[k]? = sys.cores[k]? ∧
    (∀ g, sys.cores[j]? = some g → ∃ t, clockEdge p (g.withRom sys.rom) = .next t ∧
      a.cores[j]? = some t.regs) ∧
    sharedEdge k q sys = .next b ∧
    sharedEdge k q a = .next c ∧ sharedEdge j p b = .next c

/-! ### The assembler -/

/-- The operand ranges of R82: a decimal immediate is accepted iff it fits in 32 signed bits, a decimal
target iff it fits in 32 unsigned bits, a hex literal iff it fits in 32 bits, and each gives its value. -/
def Obligations.AssemblerOperandRanges : Prop :=
  (∀ v : Int, (∃ b, immediateBits (.decimal v) = some b) ↔ -2147483648 ≤ v ∧ v ≤ 2147483647) ∧
  (∀ (v : Int) (b : Word), immediateBits (.decimal v) = some b → b.toInt = v) ∧
  (∀ v : Int, (∃ b, targetBits (.decimal v) = some b) ↔ 0 ≤ v ∧ v ≤ 4294967295) ∧
  (∀ (v : Int) (b : Word), targetBits (.decimal v) = some b → (b.toNat : Int) = v) ∧
  ∀ v : Nat, immediateBits (.hex v) = targetBits (.hex v) ∧
    ((∃ b, targetBits (.hex v) = some b) ↔ v < 2 ^ 32) ∧
    ∀ b : Word, targetBits (.hex v) = some b → b.toNat = v

/-- The two spellings of R82 are the same instruction, and an operand written after `Nop`, `Dec` or
`Halt` is refused, for every operand text without blanks at its ends (blanks are log 13). -/
def Obligations.OperandSpellingsAgree : Prop :=
  ∀ lit : List Char, lit ≠ [] → trimBlanks lit = lit →
    (∀ m, m = "Load".toList ∨ m = "JumpIfNonZero".toList ∨ m = "Jump".toList →
      parseInstr (m ++ ' ' :: lit) = parseInstr (m ++ '(' :: lit ++ [')'])) ∧
    ∀ m, m = "Nop".toList ∨ m = "Dec".toList ∨ m = "Halt".toList →
      parseInstr (m ++ ' ' :: lit) = .error .operandUnexpected ∧
      parseInstr (m ++ '(' :: lit ++ [')']) = .error .operandUnexpected
end

