-- ==== Sys2Proof/Laws/Decode.lean ====
section
/-! SUPPORT. What the fields of a made word are, and the well-formedness check. -/

namespace Sys2Proof

theorem opField_makeWord (op : Op) (arg : Word) : opField (makeWord op arg) = op := by
  unfold opField makeWord
  ext i hi
  simp only [BitVec.getElem_extractLsb', BitVec.getLsbD_append]
  simp [show ¬ (32 + i < 32) by omega, BitVec.getLsbD_eq_getElem hi]

theorem argField_makeWord (op : Op) (arg : Word) : argField (makeWord op arg) = arg := by
  unfold argField makeWord
  ext i hi
  simp only [BitVec.getElem_extractLsb', BitVec.getLsbD_append]
  simp [hi]

/-- A word is its two fields (R70). -/
theorem makeWord_fields (w : IWord) : makeWord (opField w) (argField w) = w := by
  apply BitVec.eq_of_getLsbD_eq
  intro i hi
  unfold opField argField makeWord
  rw [BitVec.getLsbD_append]
  by_cases h : i < 32
  · simp [h]
  · have h3 : i - 32 < 3 := by omega
    simp [h, h3, show 32 + (i - 32) = i by omega]

@[simp] theorem opField_encode (i : Instr) : opField (encode i) = opcodeOf i :=
  opField_makeWord _ _

@[simp] theorem argField_encode (i : Instr) : argField (encode i) = operandOf i :=
  argField_makeWord _ _

/-- Every opcode is one of the eight. -/
theorem op_cases (op : Op) : op = 0#3 ∨ op = 1#3 ∨ op = 2#3 ∨ op = 3#3 ∨ op = 4#3 ∨ op = 5#3 ∨
    op = 6#3 ∨ op = 7#3 := by
  revert op; decide

/-- The decoder refuses exactly the words that are not legal (R78, R79). -/
theorem decode_legal_iff (w : IWord) : legalWord w = true ↔ ∃ i, decode w = .instr i := by
  rcases op_cases (opField w) with h | h | h | h | h | h | h | h <;> simp [legalWord, decode, h]

/-- No word of a program that passes the check is illegal (R78). -/
theorem firstIllegalFrom_eq_none {ws : List IWord} {n : Nat} :
    firstIllegalFrom n ws = none ↔ ∀ w ∈ ws, legalWord w = true := by
  induction ws generalizing n with
  | nil => simp [firstIllegalFrom]
  | cons w ws ih =>
    by_cases h : legalWord w = true <;> simp [firstIllegalFrom, h, ih]

/-- What a well-formed program is (R7, R78). -/
theorem wellFormedProgram_iff (ws : List IWord) :
    wellFormedProgram ws = true ↔
      (∀ w ∈ ws, legalWord w = true) ∧ ws.length ≤ Config.maxProgramLength := by
  rw [← firstIllegalFrom_eq_none (n := 0)]
  unfold wellFormedProgram programError?
  cases firstIllegalFrom 0 ws with
  | some i => simp
  | none => by_cases h : ws.length ≤ Config.maxProgramLength <;> simp [h]

end Sys2Proof
end

