-- ==== Sys2Proof/Laws/State.lean ====
section
/-! SUPPORT. One lemma per field per update of the state, and what the ROM operations do. -/

namespace Sys2Proof.Machine

@[simp] theorem commit_pc (n : Word) (s : State) : (commit n s).pc = n := rfl
@[simp] theorem commit_r (n : Word) (s : State) : (commit n s).r = s.r := rfl
@[simp] theorem commit_st (n : Word) (s : State) : (commit n s).st = s.st := rfl
@[simp] theorem commit_rom (n : Word) (s : State) : (commit n s).rom = s.rom := rfl

@[simp] theorem writeR_pc (v : Word) (s : State) : (writeR v s).pc = s.pc := rfl
@[simp] theorem writeR_r (v : Word) (s : State) : (writeR v s).r = v := rfl
@[simp] theorem writeR_st (v : Word) (s : State) : (writeR v s).st = s.st := rfl
@[simp] theorem writeR_rom (v : Word) (s : State) : (writeR v s).rom = s.rom := rfl

@[simp] theorem stop_pc (x : RunState) (s : State) : (stop x s).pc = s.pc := rfl
@[simp] theorem stop_r (x : RunState) (s : State) : (stop x s).r = s.r := rfl
@[simp] theorem stop_st (x : RunState) (s : State) : (stop x s).st = x := rfl
@[simp] theorem stop_rom (x : RunState) (s : State) : (stop x s).rom = s.rom := rfl

@[simp] theorem resetTo_pc (v : Word) (s : State) : (resetTo v s).pc = 0#32 := rfl
@[simp] theorem resetTo_r (v : Word) (s : State) : (resetTo v s).r = v := rfl
@[simp] theorem resetTo_st (v : Word) (s : State) : (resetTo v s).st = .running := rfl
@[simp] theorem resetTo_rom (v : Word) (s : State) : (resetTo v s).rom = s.rom := rfl

@[simp] theorem regs_pc (s : State) : s.regs.pc = s.pc := rfl
@[simp] theorem regs_r (s : State) : s.regs.r = s.r := rfl
@[simp] theorem regs_st (s : State) : s.regs.st = s.st := rfl
@[simp] theorem resetTo_regs (v : Word) (s : State) : (resetTo v s).regs = resetRegs v := rfl
@[simp] theorem resetRegs_pc (v : Word) : (resetRegs v).pc = 0#32 := rfl
@[simp] theorem resetRegs_r (v : Word) : (resetRegs v).r = v := rfl
@[simp] theorem resetRegs_st (v : Word) : (resetRegs v).st = .running := rfl

@[simp] theorem withRom_pc (g : Regs) (m : Memory) : (g.withRom m).pc = g.pc := rfl
@[simp] theorem withRom_r (g : Regs) (m : Memory) : (g.withRom m).r = g.r := rfl
@[simp] theorem withRom_st (g : Regs) (m : Memory) : (g.withRom m).st = g.st := rfl
@[simp] theorem regs_withRom (s : State) : s.regs.withRom s.rom = s := rfl
@[simp] theorem withRom_regs (g : Regs) (m : Memory) : (g.withRom m).regs = g := rfl
@[simp] theorem withRom_rom (g : Regs) (m : Memory) : (g.withRom m).rom = m := rfl

/-- A state with these registers and this ROM is the state over them. -/
theorem state_ext {s t : State} (hr : s.regs = t.regs) (hm : s.rom = t.rom) : s = t := by
  cases s; cases t; simp_all [State.regs]

/-- The ROM answers exactly where the address decoder hits (R52, R53). -/
theorem fetchWord_isSome (m : Memory) (a : Word) : (fetchWord m a).isSome = romHit m a := by
  by_cases h : a.toNat < m.length <;> simp [fetchWord, romHit, h]

/-- A miss of the address decoder is an index at or beyond `N` (R52). -/
theorem fetchWord_eq_none_iff (m : Memory) (a : Word) :
    fetchWord m a = none ↔ m.length ≤ a.toNat := by
  simp [fetchWord]

/-- A hit is an index below `N` (R52). -/
theorem lt_of_fetchWord {m : Memory} {a : Word} {w : IWord} (h : fetchWord m a = some w) :
    a.toNat < m.length := by
  simp only [fetchWord, List.getElem?_eq_some_iff] at h
  exact h.1

/-- A placed word is the one read back. -/
theorem placeWord_same (m : Memory) (i : Nat) (w : IWord) : (placeWord m i w)[i]? = some w := by
  unfold placeWord
  split
  · next h => simp [h]
  · next h =>
    have : (m ++ List.replicate (i - m.length) (encode .nop)).length = i := by simp; omega
    rw [List.getElem?_append_right (by omega), this]; simp

/-- A placed word leaves every other word of the ROM alone. -/
theorem placeWord_other (m : Memory) {i k : Nat} (w : IWord) (hk : k < m.length) (hne : k ≠ i) :
    (placeWord m i w)[k]? = m[k]? := by
  unfold placeWord
  split
  · exact List.getElem?_set_ne (Ne.symm hne)
  · rw [List.append_assoc, List.getElem?_append_left hk]

/-- The form of a ROM is the bound on its length (R7). -/
theorem Memory.wf_iff (m : Memory) : m.wf = true ↔ m.length ≤ Config.maxProgramLength := by
  simp only [Memory.wf, decide_eq_true_eq]

/-- Every word of a ROM with a placed word is the placed one, a `Nop`, or one of the ROM. -/
theorem mem_placeWord {m : Memory} {i : Nat} {w x : IWord} (h : x ∈ placeWord m i w) :
    x ∈ m ∨ x = encode .nop ∨ x = w := by
  unfold placeWord at h
  split at h
  · rcases List.mem_or_eq_of_mem_set h with h | h
    · exact .inl h
    · exact .inr (.inr h)
  · simp only [List.mem_append, List.mem_replicate, List.mem_singleton] at h
    rcases h with (h | h) | h
    · exact .inl h
    · exact .inr (.inl h.2)
    · exact .inr (.inr h)

/-- Placing a word at an index a ROM may have keeps its form. -/
theorem placeWord_wf (m : Memory) (i : Nat) (w : IWord) (hm : m.wf = true)
    (hi : i < Config.maxProgramLength) : (placeWord m i w).wf = true := by
  simp only [Memory.wf, decide_eq_true_eq] at *
  unfold placeWord
  split
  · simpa using hm
  · simp; omega

/-- The ROM of `State.reset` has the form every ROM has. -/
theorem reset_rom_wf : State.reset.rom.wf = true := by decide

/-- A loaded program is well-formed, and the state is the one after reset with `init_r` (R214). -/
theorem loadProgram_ok {ws : List IWord} {v : Word} {s : State} (h : loadProgram ws v = .ok s) :
    wellFormedProgram ws = true ∧ s = { pc := 0#32, r := v, st := .running, rom := ws } := by
  unfold loadProgram at h
  split at h
  · cases h
  · next hn => cases h; exact ⟨by simp [wellFormedProgram, hn], rfl⟩

end Sys2Proof.Machine
end

