-- ==== Sys2Proof/Laws/Edge.lean ====
section
/-! SUPPORT. What an instruction and an edge can do, said once. -/

namespace Sys2Proof.Machine

/-- Everything an instruction can do, per constructor (R105). -/
theorem exec_next_iff (i : Instr) (s t : State) :
    exec i s = .next t ↔
      match i with
      | .nop => t = commit (s.pc + 1#32) s
      | .load imm => t = commit (s.pc + 1#32) (writeR imm s)
      | .dec => t = commit (s.pc + 1#32) (writeR (s.r - 1#32) s)
      | .jumpIfNonZero a => t = commit (if s.r = 0#32 then s.pc + 1#32 else a) s
      | .jump a => t = commit a s
      | .halt => t = stop .halted s := by
  have inj : ∀ u : State, (Host.Outcome.next u : Host.Outcome State Fault Refusal) = .next t ↔ t = u := by
    intro u; constructor
    · intro h; cases h; rfl
    · intro h; rw [h]
  cases i <;>
    simp only [exec, execNop, execLoad, execDec, execJumpIfNonZero, execJump, execHalt, inj,
      sequentialPc, immediate, target, decrement, readR, isNonZero]
  case jumpIfNonZero a => by_cases h : s.r = 0#32 <;> simp [h]

/-- Everything a step can do once the ROM has answered. -/
theorem executeFetched_cases {answer : Option IWord} {s t : State}
    (h : executeFetched answer s = .next t) :
    (answer = none ∧ t = stop .outOfRange s) ∨
    (∃ w op, answer = some w ∧ decode w = .illegal op ∧ t = stop .illegal s) ∨
    (∃ w i, answer = some w ∧ decode w = .instr i ∧ exec i s = .next t) := by
  unfold executeFetched at h
  cases answer with
  | none => cases h; exact .inl ⟨rfl, rfl⟩
  | some w =>
    cases hd : decode w with
    | illegal op => simp only [hd] at h; cases h; exact .inr (.inl ⟨w, op, rfl, hd, rfl⟩)
    | instr i => simp only [hd] at h; exact .inr (.inr ⟨w, i, rfl, hd, h⟩)

/-- No instruction writes the ROM (R51, R58). -/
theorem exec_rom {i : Instr} {s t : State} (h : exec i s = .next t) : t.rom = s.rom := by
  rw [exec_next_iff] at h
  cases i <;> simp_all

/-- No step writes the ROM, whatever the ROM has answered (R58). -/
theorem executeFetched_rom {answer : Option IWord} {s t : State}
    (h : executeFetched answer s = .next t) : t.rom = s.rom := by
  rcases executeFetched_cases h with ⟨-, rfl⟩ | ⟨_, _, -, -, rfl⟩ | ⟨_, _, -, -, he⟩
  · rfl
  · rfl
  · exact exec_rom he

/-- Taking an outcome to the registers and back over its own ROM changes nothing. -/
theorem overRom_onRegs {o : Host.Outcome State Fault Refusal} {rom : Memory}
    (h : ∀ t, o = .next t → t.rom = rom) : overRom rom (onRegs o) = o := by
  cases o with
  | next t => rw [← h t rfl]; rfl
  | fault f => rfl
  | refused r => rfl

/-- The edge on a state, case by case: `edgeOver` seen from the pair of registers and ROM. -/
theorem clockEdge_eq (p : Pins) (s : State) :
    clockEdge p s =
      if p.rst then .next (resetTo p.initR s)
      else if stepHappens p s then executeFetched (fetchWord s.rom s.pc) s
      else .next s := by
  unfold clockEdge edgeOver
  rw [regs_withRom, regs_pc]
  split
  · rfl
  · split
    · exact overRom_onRegs fun _ h => executeFetched_rom h
    · rfl

/-- Everything an edge can do (R101, R102, R105, R184, R210). -/
theorem clockEdge_cases {p : Pins} {s t : State} (h : clockEdge p s = .next t) :
    (p.rst = true ∧ t = resetTo p.initR s) ∨
    (p.rst = false ∧ stepHappens p s = false ∧ t = s) ∨
    (stepHappens p s = true ∧ fetchWord s.rom s.pc = none ∧ t = stop .outOfRange s) ∨
    (∃ w op, stepHappens p s = true ∧ fetchWord s.rom s.pc = some w ∧ decode w = .illegal op ∧
      t = stop .illegal s) ∨
    (∃ w i, stepHappens p s = true ∧ fetchWord s.rom s.pc = some w ∧ decode w = .instr i ∧
      exec i s = .next t) := by
  rw [clockEdge_eq] at h
  split at h
  · next hr => cases h; exact .inl ⟨hr, rfl⟩
  · next hr =>
    split at h
    · next hs =>
      rcases executeFetched_cases h with ⟨hn, rfl⟩ | ⟨w, op, hw, hd, rfl⟩ | ⟨w, i, hw, hd, he⟩
      · exact .inr (.inr (.inl ⟨hs, hn, rfl⟩))
      · exact .inr (.inr (.inr (.inl ⟨w, op, hs, hw, hd, rfl⟩)))
      · exact .inr (.inr (.inr (.inr ⟨w, i, hs, hw, hd, he⟩)))
    · next hs =>
      cases h
      exact .inr (.inl ⟨by simpa using hr, by simpa using hs, rfl⟩)

/-- A step happens only in state RUNNING, with `step_en = 1` and no reset (R100). -/
theorem stepHappens_iff (p : Pins) (s : State) :
    stepHappens p s = true ↔ p.rst = false ∧ p.stepEn = true ∧ s.st = .running := by
  simp [stepHappens, and_assoc]

/-- An edge that is neither a reset nor a step changes nothing (R101). -/
theorem clockEdge_idle {p : Pins} {s : State} (hr : p.rst = false) (hs : stepHappens p s = false) :
    clockEdge p s = .next s := by
  simp [clockEdge_eq, hr, hs]

/-- An edge on which a step happens is the step (R100). -/
theorem clockEdge_step {p : Pins} {s : State} (h : stepHappens p s = true) :
    clockEdge p s = executeFetched (fetchWord s.rom s.pc) s := by
  have hr := ((stepHappens_iff p s).1 h).1
  simp [clockEdge_eq, hr, h]

/-- The step relation over a ROM is the edge on the pair (R50). -/
theorem clockEdge_withRom {rom : Memory} {p : Pins} {g h : Regs} (e : edgeOver rom p g = .next h) :
    clockEdge p (g.withRom rom) = .next (h.withRom rom) := by
  simp [clockEdge, e, overRom]

end Sys2Proof.Machine
end

