-- ==== Sys2Proof/Laws/PerInstr.lean ====
section
/-! SUPPORT. What holds of every instruction, one lemma per constructor. -/

namespace Sys2Proof.Laws.EncodesCanonically

/-- The word of an instruction is legal and canonical (30_encoding.md R77, R78). -/
def Statement (i : Instr) : Prop := legalWord (encode i) = true ∧ canonical (encode i) = true

theorem nop : Statement .nop := by unfold Statement; decide
theorem load (imm : Word) : Statement (.load imm) := by
  simp [Statement, canonical, legalWord, operandUnused, opcodeOf]
theorem dec : Statement .dec := by unfold Statement; decide
theorem jumpIfNonZero (target : Word) : Statement (.jumpIfNonZero target) := by
  simp [Statement, canonical, legalWord, operandUnused, opcodeOf]
theorem jump (target : Word) : Statement (.jump target) := by
  simp [Statement, canonical, legalWord, operandUnused, opcodeOf]
theorem halt : Statement .halt := by unfold Statement; decide

end Sys2Proof.Laws.EncodesCanonically
end

