-- ==== Sys2Proof/Laws/Step.lean ====
section
/-! SUPPORT. What a step, a sequence of edges and a placed word do, and the countdown loop of
70_reset_and_hazards.md R219 as a check of the model. -/

namespace Sys2Proof.Machine

/-- In state RUNNING the step is the fetched word's effect (R103). -/
theorem step_running {s : State} (h : s.st = .running) :
    step s = executeFetched (fetchWord s.rom s.pc) s :=
  clockEdge_step (by simp [stepHappens, stepRequest, h])

/-- A step at a word that decodes to `i` is `exec i` (R105). -/
theorem step_decoded {s : State} {w : IWord} {i : Instr} (h : s.st = .running)
    (hw : fetchWord s.rom s.pc = some w) (hd : decode w = .instr i) : step s = exec i s := by
  simp [step_running h, hw, executeFetched, hd]

/-- An edge leaves the ROM (R58). -/
theorem clockEdge_rom {p : Pins} {s t : State} (h : clockEdge p s = .next t) : t.rom = s.rom := by
  rcases clockEdge_cases h with ⟨-, rfl⟩ | ⟨-, -, rfl⟩ | ⟨-, -, rfl⟩ | ⟨_, _, -, -, -, rfl⟩ |
    ⟨_, _, -, -, -, he⟩
  · rfl
  · rfl
  · rfl
  · rfl
  · exact exec_rom he

/-- The first edge of a sequence, taken off. -/
theorem clockEdges_cons {p : Pins} {ps : List Pins} {s t : State} (h : clockEdge p s = .next t) :
    clockEdges (p :: ps) s = clockEdges ps t := by
  simp [clockEdges, h]

/-- A placed word keeps the form of the ROM. -/
theorem withFetchWord_wf (s : State) (nbits w : Nat) (h : s.rom.wf = true) :
    (s.withFetchWord nbits w).rom.wf = true := by
  apply placeWord_wf _ _ _ h
  split
  · assumption
  · decide

/-- A placed word is the one the next step fetches. -/
theorem withFetchWord_fetch (s : State) (nbits w : Nat) :
    fetchWord (s.withFetchWord nbits w).rom (s.withFetchWord nbits w).pc =
      some (BitVec.ofNat 35 (w % 2 ^ nbits)) :=
  placeWord_same _ _ _

/-- A step that goes on, taken off a run of the host's machine. -/
theorem run_succ {M : Host.Core} {s t : M.State} (h : M.step s = .next t) (k : Nat) :
    M.run (k + 1) s = M.run k t := by
  rw [Host.Core.run.eq_def]; simp [h]

/-- A placed legal word keeps the program admitted (R78). -/
theorem withFetchWord_wellFormed (s : State) (nbits w : Nat) (h : wellFormedProgram s.rom = true)
    (hw : legalWord (BitVec.ofNat 35 (w % 2 ^ nbits)) = true) :
    wellFormedProgram (s.withFetchWord nbits w).rom = true := by
  rw [wellFormedProgram_iff] at h ⊢
  refine ⟨fun x hx => ?_, (Memory.wf_iff _).1 (withFetchWord_wf s nbits w ((Memory.wf_iff _).2 h.2))⟩
  rcases mem_placeWord hx with hm | rfl | rfl
  · exact h.1 x hm
  · decide
  · exact hw

/-- Two steps that both go on are the second of them from the first's end. -/
theorem core_run_two {s t u : State} (h1 : step s = .next t) (h2 : step t = .next u) (k : Nat) :
    Host.Core.run Sys2Proof.core (k + 2) s = Host.Core.run Sys2Proof.core k u :=
  (run_succ (M := Sys2Proof.core) h1 (k + 1)).trans (run_succ (M := Sys2Proof.core) h2 k)

/-- A `Dec` at `k` with `JumpIfNonZero k` after it runs `Dec` exactly `(R - 1) mod 2^32 + 1` times and
falls through with R = 0 (R219). -/
theorem countdown_loop {k : Word} {w1 w2 : IWord} (n : Nat) (s : State)
    (hst : s.st = .running) (hpc : s.pc = k) (hn : (s.r - 1#32).toNat = n)
    (h1 : fetchWord s.rom k = some w1) (d1 : decode w1 = .instr .dec)
    (h2 : fetchWord s.rom (k + 1#32) = some w2) (d2 : decode w2 = .instr (.jumpIfNonZero k)) :
    Host.Core.run Sys2Proof.core (2 * (n + 1)) s = .next { s with pc := k + 2#32, r := 0#32 } := by
  induction n generalizing s with
  | zero =>
    have hz : s.r - 1#32 = 0#32 := BitVec.eq_of_toNat_eq (by simpa using hn)
    have e1 : step s = .next { s with pc := k + 1#32, r := 0#32 } := by
      rw [step_decoded hst (by rw [hpc]; exact h1) d1, exec_next_iff]
      simp [commit, writeR, hz, hpc]
    have e2 : step { s with pc := k + 1#32, r := 0#32 } = .next { s with pc := k + 2#32, r := 0#32 } := by
      rw [step_decoded (by exact hst) h2 d2, exec_next_iff]
      simp [commit, BitVec.add_assoc]
    rw [core_run_two e1 e2]; rfl
  | succ n ih =>
    have hne : s.r - 1#32 ≠ 0#32 := by
      intro h; rw [h] at hn; simp at hn
    have e1 : step s = .next { s with pc := k + 1#32, r := s.r - 1#32 } := by
      rw [step_decoded hst (by rw [hpc]; exact h1) d1, exec_next_iff]
      simp [commit, writeR, hpc]
    have e2 : step { s with pc := k + 1#32, r := s.r - 1#32 } =
        .next { s with pc := k, r := s.r - 1#32 } := by
      rw [step_decoded (by exact hst) h2 d2, exec_next_iff]
      simp [commit, hne]
    rw [show 2 * (n + 1 + 1) = 2 * (n + 1) + 2 by omega, core_run_two e1 e2]
    exact ih { s with pc := k, r := s.r - 1#32 } hst rfl (by bv_omega) h1 h2

/-- The number of `Dec`s in R219: `R0` for a positive `R0`, `2^32 + signed(R0)` otherwise. -/
theorem countdown_count (r : Word) :
    ((r - 1#32).toNat + 1 : Int) = if 0 < r.toInt then r.toInt else 2 ^ 32 + r.toInt := by
  rw [BitVec.toInt_eq_toNat_cond]
  split <;> split <;> bv_omega

/-- An invariant that holds after reset and that every edge keeps holds in every state of every run. -/
theorem reached_induction {rom : Memory} (Inv : State → Prop)
    (h0 : ∀ v, wellFormedProgram rom = true → Inv ((resetRegs v).withRom rom))
    (hk : ∀ p s t, Inv s → clockEdge p s = .next t → Inv t) {s : State} (h : Reached rom s) :
    Inv s := by
  induction h with
  | reset v hw => exact h0 v hw
  | edge p _ he ih => exact hk p _ _ ih he

/-- A loaded program's state is a state of its run (R212, R214). -/
theorem reached_of_load {ws : List IWord} {v : Word} {s : State} (h : loadProgram ws v = .ok s) :
    Reached ws s := by
  obtain ⟨hw, rfl⟩ := loadProgram_ok h
  exact .reset v hw

/-- A run is of an admitted program alone (R78). -/
theorem reached_wellFormed {rom : Memory} {s : State} (h : Reached rom s) :
    wellFormedProgram rom = true :=
  reached_induction (fun _ => wellFormedProgram rom = true) (fun _ hw => hw) (fun _ _ _ hi _ => hi) h

/-- A program the check refuses gives no machine, by the same error (R78). -/
theorem buildMachine_error {ws : List IWord} {e : ProgramError} (h : programError? ws = some e)
    (v : Word) : buildMachine ws v = .error e := by
  simp [buildMachine, h]

end Sys2Proof.Machine
end

