-- ==== Sys2Proof/Tests/Slice0.lean ====
section
/-! SUPPORT. Tests with expected results from 95_test_vectors.md (its vector is named), smoke tests of the
construction check, and for every statement with hypotheses a witness that meets them. -/

namespace Sys2Proof.Tests

open Sys2Proof.Machine

/-- A state in RUNNING. -/
def at_ (pc r : Word) (rom : Memory) : State := { pc := pc, r := r, st := .running, rom := rom }

/-- A ROM of seven words with `w` at index `k`, the others `Nop`. -/
def seven (k : Nat) (w : IWord) : Memory := (List.replicate 7 0#35).set k w

/-- The next state of an outcome. -/
def next? (o : Host.Outcome State Fault Refusal) : Option State :=
  match o with
  | .next t => some t
  | .fault _ => none
  | .refused _ => none

/-- PC, R and ST of an outcome's next state. -/
def regs? (o : Host.Outcome State Fault Refusal) : Option Regs := (next? o).map State.regs

/-! ### Decoding: words written out from R70 and R72, bit by bit -/

theorem test_decode_nop : decode 0b000_00000000000000000000000000000000#35 = .instr .nop := by decide
theorem test_decode_load :
    decode 0b001_10000000000000000000000000000011#35 = .instr (.load 0x80000003#32) := by decide
theorem test_decode_dec : decode 0b010_00000000000000000000000000000001#35 = .instr .dec := by decide
theorem test_decode_jumpIfNonZero :
    decode 0b011_10000000000000000000000000000010#35 = .instr (.jumpIfNonZero 0x80000002#32) := by decide
theorem test_decode_jump :
    decode 0b100_00000000000000000000000000000110#35 = .instr (.jump 6#32) := by decide
theorem test_decode_halt : decode 0b101_11111111111111111111111111111111#35 = .instr .halt := by decide
theorem test_decode_illegal : decode 0b110_00000000000000000000000000000000#35 = .illegal 6#3 ∧
    decode 0b111_11111111111111111111111111111111#35 = .illegal 7#3 := by decide
theorem test_decodeTableWord : decodeTableWord 40 0x100000003 = some (.load 3#32) ∧
    decodeTableWord 40 0x600000000 = none ∧ decodeTableWord 40 0x800000000 = none := by decide
theorem test_canonical : canonical 0x3FFFFFFFF#35 = true ∧ canonical 0x200000001#35 = false ∧
    canonical 0x600000000#35 = false := by decide

/-! ### The construction check refuses an ill-formed program -/

theorem test_wellFormed_refuses_illegal_word :
    programError? [0x100000003#35, 0x600000000#35, 0x700000000#35] = some (.illegalWord 1) := by decide
theorem long_program_refused (n : Nat) (hn : Config.maxProgramLength < n) :
    programError? (List.replicate n 0#35) = some (.tooLong n) := by
  have h : firstIllegalFrom 0 (List.replicate n 0#35) = none := by
    rw [firstIllegalFrom_eq_none]
    intro w hw
    rw [List.eq_of_mem_replicate hw]; decide
  simp [programError?, h, Nat.not_le.2 hn]
theorem test_wellFormed_refuses_too_long :
    programError? (List.replicate 4294967296 0#35) = some (.tooLong 4294967296) :=
  long_program_refused 4294967296 (by decide)
theorem test_wellFormed_admits_unused_operands :
    programError? [0x0DEADBEEF#35, 0x200000001#35, 0x5FFFFFFFF#35] = none ∧ programError? [] = none := by
  decide

/-! ### Steps -/

/-- N-3. -/
theorem test_nop : regs? (step (at_ 0 0 (seven 0 0x0DEADBEEF#35))) = some ⟨1#32, 0#32, .running⟩ := by decide
/-- L-4. -/
theorem test_load : regs? (step (at_ 0 0x7FFFFFFF (seven 0 0x180000000#35))) =
    some ⟨1#32, 0x80000000#32, .running⟩ := by decide
/-- D-4. -/
theorem test_dec_wraps : regs? (step (at_ 0 0x80000000 (seven 0 0x200000000#35))) =
    some ⟨1#32, 0x7FFFFFFF#32, .running⟩ := by decide
/-- D-3. -/
theorem test_dec_zero : regs? (step (at_ 0 0 (seven 0 0x200000000#35))) =
    some ⟨1#32, 0xFFFFFFFF#32, .running⟩ := by decide
/-- Z-3: a negative R takes the branch. -/
theorem test_jumpIfNonZero_taken : regs? (step (at_ 3 0xFFFFFFFF (seven 3 0x300000000#35))) =
    some ⟨0#32, 0xFFFFFFFF#32, .running⟩ := by decide
/-- Z-2. -/
theorem test_jumpIfNonZero_falls_through : regs? (step (at_ 3 0 (seven 3 0x300000002#35))) =
    some ⟨4#32, 0#32, .running⟩ := by decide
/-- J-5. -/
theorem test_jump_far : regs? (step (at_ 0 0 (seven 0 0x4FFFFFFFF#35))) =
    some ⟨0xFFFFFFFF#32, 0#32, .running⟩ := by decide
/-- H-2. -/
theorem test_halt : regs? (step (at_ 2 4 (seven 2 0x5FFFFFFFF#35))) =
    some ⟨2#32, 4#32, .halted⟩ := by decide
/-- X-1 and X-3. -/
theorem test_out_of_range : regs? (step (at_ 7 0 (seven 0 0))) = some ⟨7#32, 0#32, .outOfRange⟩ ∧
    regs? (step (at_ 0 0x2A [])) = some ⟨0#32, 0x2A#32, .outOfRange⟩ := by decide
/-- X-10. -/
theorem test_illegal : regs? (step (at_ 0 0 [0x600000000#35, 0#35])) = some ⟨0#32, 0#32, .illegal⟩ := by
  decide
/-- X-5. -/
theorem test_terminal : step { at_ 6 0 (seven 0 0) with st := .halted } =
    .next { at_ 6 0 (seven 0 0) with st := .halted } := rfl
/-- X-9: reset wins. -/
theorem test_reset_wins :
    regs? (clockEdge { rst := true, initR := 0, stepEn := true } (at_ 3 2 (seven 0 0))) =
      some ⟨0#32, 0#32, .running⟩ := by decide
/-- X-7. -/
theorem test_no_step : clockEdge { rst := false, initR := 9, stepEn := false } (at_ 3 2 (seven 0 0)) =
    .next (at_ 3 2 (seven 0 0)) := rfl
/-- The first step after reset, on a placed word and on the empty ROM (R182). -/
theorem test_first_step : regs? (step (State.reset.withFetchWord 40 0x100000003)) =
      some ⟨1#32, 3#32, .running⟩ ∧
    regs? (step State.reset) = some ⟨0#32, 0#32, .outOfRange⟩ := by decide

/-! ### Ports -/

/-- Z-4: a taken branch to the next index is SEQ. -/
theorem test_trace_taken_to_next : tracePort stepRequest (at_ 3 0x80000000 (seven 3 0x300000004#35)) =
    some ⟨3#32, 3#3, 4#32, 0x80000000#32, 4#32, .seq⟩ := by decide
/-- H-1. -/
theorem test_trace_halt : tracePort stepRequest (at_ 6 0 (seven 6 0x500000000#35)) =
    some ⟨6#32, 5#3, 0#32, 0#32, 6#32, .halt⟩ := by decide
/-- J-4: a self-loop is BRANCH. -/
theorem test_trace_self_loop : (tracePort stepRequest (at_ 4 0 (seven 4 0x400000004#35))).map
    (fun e => (e.kind, e.nextPc)) = some (.branch, 4#32) := by decide
/-- X-1 and X-10: no record. -/
theorem test_trace_none : tracePort stepRequest (at_ 7 0 (seven 0 0)) = none ∧
    tracePort stepRequest (at_ 0 0 [0x600000000#35]) = none := by decide
/-- R72, R84. -/
theorem test_mnemonic : mnemonicOf 3#3 = some "JumpIfNonZero" ∧ mnemonicOf 6#3 = none := by decide
/-- R81, the rows of `Load`, `Halt` and the illegal opcodes. -/
theorem test_control : controlOf 1#3 = ⟨true, some .imm, .inc, false, false⟩ ∧
    controlOf 5#3 = ⟨false, none, .hold, true, false⟩ ∧
    controlOf 7#3 = ⟨false, none, .hold, false, true⟩ := by decide

/-! ### The assembler -/

/-- A-1 to A-4. -/
theorem test_asm_operands : parseInstr "JumpIfNonZero(2)".toList = .ok (.jumpIfNonZero 2#32) ∧
    parseInstr "JumpIfNonZero 2".toList = .ok (.jumpIfNonZero 2#32) ∧
    parseInstr "Load -1".toList = .ok (.load 0xFFFFFFFF#32) ∧
    parseInstr "Load 0xFFFFFFFF".toList = .ok (.load 0xFFFFFFFF#32) := ⟨rfl, rfl, rfl, rfl⟩
/-- A plus sign, a signed hex literal and grouped digits are refused (log 13). -/
theorem test_asm_signs : parseInstr "Load +3".toList = .error .badLiteral ∧
    parseInstr "Load -0x1".toList = .error .badLiteral ∧
    parseInstr "Load 1_0".toList = .error .badLiteral := ⟨rfl, rfl, rfl⟩
/-- A-5 to A-8. -/
theorem test_asm_refusals : parseInstr "Load 2147483648".toList = .error .literalOutOfRange ∧
    parseInstr "Jump -1".toList = .error .literalOutOfRange ∧
    parseInstr "Nop 0".toList = .error .operandUnexpected ∧
    parseInstr "nop".toList = .error .unknownMnemonic := ⟨rfl, rfl, rfl, rfl⟩
/-- P1 and its ROM words. -/
theorem test_asm_program :
    assemble "[Load 3, Nop, Dec, JumpIfNonZero(2), Jump(6), Nop, Halt]".toList =
      .ok [0x100000003#35, 0#35, 0x200000000#35, 0x300000002#35, 0x400000006#35, 0#35, 0x500000000#35] :=
  rfl
/-- One instruction a line, and the empty program. -/
theorem test_asm_lines : assemble "Load -5\nJump(100)\nHalt\n".toList =
      .ok [0x1FFFFFFFB#35, 0x400000064#35, 0x500000000#35] ∧
    assemble "[]".toList = .ok [] := ⟨rfl, rfl⟩

/-! ### Witnesses: states and operands that meet the hypotheses of the statements -/

theorem witness_NopAdvancesPcAlone : (at_ 0 0 (seven 0 0x0DEADBEEF#35)).st = .running ∧
    fetchWord (seven 0 0x0DEADBEEF#35) 0 = some (0b000#3 ++ 0xDEADBEEF#32) := by decide
theorem witness_LoadWritesItsImmediate : (at_ 6 0 (seven 6 0x180000000#35)).st = .running ∧
    fetchWord (seven 6 0x180000000#35) 6 = some (0b001#3 ++ 0x80000000#32) := by decide
theorem witness_DecSubtractsOneAndWraps : (at_ 0 0x80000000 (seven 0 0x200000001#35)).st = .running ∧
    fetchWord (seven 0 0x200000001#35) 0 = some (0b010#3 ++ 1#32) := by decide
theorem witness_DecSignedArithmeticLaw : (0x80000000#32).toInt = -(2 ^ 31) ∧
    -(2 ^ 31) < (0x80000001#32).toInt ∧ (0#32).toInt = 0 := by decide
theorem witness_JumpIfNonZeroTestsRAtEntry :
    (at_ 3 0xFFFFFFFF (seven 3 0x300000000#35)).st = .running ∧
    fetchWord (seven 3 0x300000000#35) 3 = some (0b011#3 ++ 0#32) ∧
    (at_ 3 0xFFFFFFFF (seven 3 0x300000000#35)).r ≠ 0#32 ∧
    (at_ 3 0 (seven 3 0x300000000#35)).r = 0#32 := by decide
theorem witness_JumpSetsPcToItsTarget : (at_ 0 0 (seven 0 0x4FFFFFFFF#35)).st = .running ∧
    fetchWord (seven 0 0x4FFFFFFFF#35) 0 = some (0b100#3 ++ 0xFFFFFFFF#32) := by decide
theorem witness_HaltWritesStAlone : (at_ 6 0 (seven 6 0x500000000#35)).st = .running ∧
    fetchWord (seven 6 0x500000000#35) 6 = some (0b101#3 ++ 0#32) := by decide
theorem witness_InstructionFrame : (∃ t, exec .nop (at_ 0 1 []) = .next t) ∧
    (∃ t, exec .halt (at_ 0 1 []) = .next t) ∧ (∀ imm, Instr.nop ≠ .load imm) ∧ Instr.nop ≠ .dec :=
  ⟨⟨_, rfl⟩, ⟨_, rfl⟩, fun _ => by simp, by decide⟩
theorem witness_OpcodeMapByMaskAndMatch :
    (0x0FFFFFFFF#35 : IWord) &&& 0x700000000#35 = 0x000000000#35 ∧
    (0x1FFFFFFFF#35 : IWord) &&& 0x700000000#35 = 0x100000000#35 ∧
    (0x200000000#35 : IWord) &&& 0x700000000#35 = 0x200000000#35 ∧
    (0x380000000#35 : IWord) &&& 0x700000000#35 = 0x300000000#35 ∧
    (0x4FFFFFFFF#35 : IWord) &&& 0x700000000#35 = 0x400000000#35 ∧
    (0x5FFFFFFFF#35 : IWord) &&& 0x700000000#35 = 0x500000000#35 ∧
    (0x600000000#35 : IWord) &&& 0x700000000#35 = 0x600000000#35 ∧
    (0x7FFFFFFFF#35 : IWord) &&& 0x700000000#35 = 0x700000000#35 := by decide
theorem witness_DecodeAndEncodeAgree : assemble "[Halt]".toList = .ok [0x500000000#35] ∧
    (opField 0x5FFFFFFFF#35).toNat ≤ 5 ∧ opField 0x500000000#35 = 5#3 ∧ argField 0x500000000#35 = 0#32 :=
  ⟨rfl, by decide, by decide, by decide⟩
theorem witness_UnusedOperandNeverMatters : (at_ 0 5 [0x200000000#35]).regs = (at_ 0 5 [0x200000001#35]).regs ∧
    fetchWord [0x200000000#35] 0 = some (2#3 ++ 0#32) ∧
    fetchWord [0x200000001#35] 0 = some (2#3 ++ 1#32) := by decide
theorem witness_ConstructionRefusesByIndex : wellFormedProgram [0x5FFFFFFFF#35] = true ∧
    wellFormedProgram [0#35, 0x600000000#35] = false ∧
    programError? [0#35, 0x600000000#35] = some (.illegalWord 1) := by decide
theorem witness_ResetValues : ({ rst := true, initR := 9, stepEn := false } : Pins).rst = true := rfl
theorem witness_EdgeWithoutStepChangesNothing : stepRequest.rst = false ∧
    terminal RunState.halted = true ∧
    ({ rst := false, initR := 0, stepEn := false } : Pins).stepEn = false := by decide
theorem witness_TerminalStatesLastUntilReset : terminal RunState.outOfRange = true ∧
    (∀ p ∈ [stepRequest, stepRequest], p.rst = false) ∧
    ({ rst := true, initR := 0, stepEn := true } : Pins).rst = true := by decide
theorem witness_StepIsTheFunctionOfR109 : stepRequest.rst = false ∧ stepRequest.stepEn = true ∧
    (at_ 6 0 (seven 6 0x600000000#35)).st = .running ∧
    (seven 6 0x600000000#35)[6]? = some (6#3 ++ 0#32) ∧ (seven 6 0x5FFFFFFFF#35)[6]? = some (5#3 ++ 0xFFFFFFFF#32) ∧
    (seven 6 0x400000007#35)[6]? = some (4#3 ++ 7#32) ∧ (4#3).toNat ≤ 4 ∧
    (seven 0 0).length ≤ (at_ 7 0 (seven 0 0)).pc.toNat ∧
    ({ at_ 0 0 [] with st := .halted } : State).st ≠ .running := by decide
theorem witness_StepRunsTheDecodedInstruction : (at_ 6 0 (seven 6 0x180000000#35)).st = .running ∧
    fetchWord (seven 6 0x180000000#35) 6 = some 0x180000000#35 ∧
    decode 0x180000000#35 = .instr (.load 0x80000000#32) := by decide
theorem witness_PlacedTableWordIsRunNext : decodeTableWord 40 0x5FFFFFFFF = some .halt ∧
    wellFormedProgram (at_ 0xFFFFFFFF 0 []).rom = true ∧
    (at_ 0xFFFFFFFF 0 []).rom.wf = true := by decide
/-- A target, a sequential advance and the empty ROM reach the end (R182), and PC = N stops. -/
theorem witness_OutOfRangeCauseAndWays :
    regs? (step (at_ 3 1 (seven 3 0x300000007#35))) = some ⟨7#32, 1#32, .running⟩ ∧
    regs? (step (at_ 6 1 (seven 6 0x000000000#35))) = some ⟨7#32, 1#32, .running⟩ ∧
    (at_ 6 1 (seven 6 0x000000000#35)).pc.toNat < (seven 6 0x000000000#35).length ∧
    (seven 0 0).length ≤ (at_ 7 0 (seven 0 0)).pc.toNat := by decide
theorem witness_FarTargetFoundOneStepLater : (at_ 0 1 (seven 0 0x400000007#35)).st = .running ∧
    fetchWord (seven 0 0x400000007#35) 0 = some 0x400000007#35 ∧
    decode 0x400000007#35 = .instr (.jump 7#32) ∧ (seven 0 0x400000007#35).length ≤ (7#32).toNat ∧
    decode 0x3FFFFFFFF#35 = .instr (.jumpIfNonZero 0xFFFFFFFF#32) ∧
    (at_ 0 1 (seven 0 0x3FFFFFFFF#35)).r ≠ 0#32 := by decide
theorem witness_IllegalOpcodeStopsTheStep : (at_ 0 0 [0x700000001#35]).st = .running ∧
    fetchWord [0x700000001#35] 0 = some (7#3 ++ 1#32) ∧
    (7#3 ++ 1#32 : IWord) ∈ [0x700000001#35] := by decide
/-- An edge of each kind: reset, none, out of range, an instruction. -/
theorem witness_edges : (∃ t, clockEdge { rst := true, initR := 1, stepEn := false } (at_ 0 0 []) = .next t) ∧
    (∃ t, clockEdge { rst := false, initR := 1, stepEn := false } (at_ 0 0 []) = .next t) ∧
    (∃ t, clockEdge stepRequest (at_ 0 0 []) = .next t) ∧
    (∃ t, clockEdge stepRequest (at_ 0 0 [0x500000000#35]) = .next t) ∧
    (∃ t, clockEdges [stepRequest, stepRequest] (at_ 0 0 [0x500000000#35]) = .next t) :=
  ⟨⟨_, rfl⟩, ⟨_, rfl⟩, ⟨_, rfl⟩, ⟨_, rfl⟩, ⟨_, rfl⟩⟩
theorem witness_OutcomePriority : ∃ t, clockEdge stepRequest (at_ 0 0 [0x500000000#35]) = .next t ∧
    t.st = .halted := ⟨_, rfl, rfl⟩
theorem witness_OnlyListedStTransitions : ∃ t, clockEdge stepRequest (at_ 0 0 []) = .next t ∧
    t.st = .outOfRange := ⟨_, rfl, rfl⟩
theorem witness_PcWrittenByStepAndResetAlone :
    (∃ t, clockEdge stepRequest (at_ 0 0 [0x4FFFFFFFF#35]) = .next t ∧ t.st = .running) ∧
    (∃ t, clockEdge stepRequest (at_ 0 0 [0x500000000#35]) = .next t ∧ t.st ≠ .running) ∧
    stepHappens stepRequest (at_ 0 0 []) = true ∧
    stepHappens { rst := false, initR := 0, stepEn := false } (at_ 0 0 []) = false :=
  ⟨⟨_, rfl, rfl⟩, ⟨_, rfl, by decide⟩, by decide, by decide⟩
theorem witness_PcNeverWraps : (at_ 6 0 (seven 6 0)).rom.wf = true ∧
    ∃ t, step (at_ 6 0 (seven 6 0)) = .next t := ⟨by decide, _, rfl⟩
theorem witness_TerminalOutcomeIsPrecise : ∃ t, step (at_ 0 3 [0x500000000#35]) = .next t ∧
    t.st ≠ .running := ⟨_, rfl, by decide⟩
theorem witness_RomIsNeverWritten :
    ∃ t, clockEdges [stepRequest, stepRequest] (at_ 0 0 [0x200000000#35]) = .next t := ⟨_, rfl⟩
theorem witness_OnlyTheFetchedWordMatters :
    (at_ 0 5 [0x200000000#35]).regs = (at_ 0 5 [0x200000000#35, 0#35]).regs ∧
    fetchWord [0x200000000#35] 0 = fetchWord [0x200000000#35, 0#35] 0 := by decide
theorem witness_NeverIllegal : NeverIllegal (at_ 0 0 [0x500000000#35]) ∧
    ∃ t, step (at_ 0 0 [0x500000000#35]) = .next t := ⟨⟨by decide, by decide⟩, _, rfl⟩
theorem witness_CauseAtPc : CauseAtPc { at_ 0 0 [0x500000000#35] with st := .halted } ∧
    CauseAtPc { at_ 1 0 [0x500000000#35] with st := .outOfRange } ∧
    CauseAtPc { at_ 0 0 [0x600000000#35] with st := .illegal } ∧
    ∃ t, clockEdge stepRequest { at_ 0 0 [0x500000000#35] with st := .halted } = .next t :=
  ⟨⟨_, rfl, rfl⟩, by unfold CauseAtPc; decide, ⟨_, _, rfl, rfl⟩, _, rfl⟩
theorem witness_ResetMeetsTheInvariants : ∃ s, loadProgram [0x500000000#35] 7 = .ok s := ⟨_, rfl⟩
theorem witness_RunsOfAdmittedRoms : wellFormedProgram [0x500000000#35] = true ∧
    Reached [0x500000000#35] { at_ 0 7 [0x500000000#35] with st := .halted } :=
  ⟨by decide, .edge (s := at_ 0 7 [0x500000000#35]) stepRequest (.reset 7#32 (by decide)) rfl⟩
theorem witness_DatapathComputesTheEdge :
    (true = true ↔ (at_ 6 0 (seven 6 0x500000000#35)).pc.toNat < (seven 6 0x500000000#35).length) ∧
    (seven 6 0x500000000#35)[6]? = some 0x500000000#35 ∧
    (false = true ↔ (at_ 7 0 (seven 6 0)).pc.toNat < (seven 6 0).length) := by decide
theorem witness_RomDataUnusedOnMiss : romValid (at_ 6 0 (seven 0 0)) = true ∧
    stepRequest.rst = false ∧ stepRequest.stepEn = true ∧
    ({ pc := 7, r := 0, st := .running } : Regs).st = .running := by decide
theorem witness_AddressDecoderHitsBelowN : (6#32).toNat < (seven 0 0).length ∧
    (seven 0 0).length ≤ (7#32).toNat := by decide
theorem witness_TraceRecordsTheCommittedStep :
    (∃ t, clockEdge stepRequest (at_ 6 0 (seven 6 0x500000000#35)) = .next t) ∧
    fetchWord (seven 6 0x500000000#35) 6 = some 0x500000000#35 ∧
    ∃ e, tracePort stepRequest (at_ 6 0 (seven 6 0x500000000#35)) = some e := ⟨⟨_, rfl⟩, rfl, _, rfl⟩
theorem witness_TwoCycleRealisationIsStepEquivalent :
    twoCycleReady { core := at_ 0 0 [0x500000000#35], phase := .fetch } = true ∧
    stepHappens stepRequest (at_ 0 0 [0x500000000#35]) = true ∧
    stepHappens { rst := true, initR := 0, stepEn := true } (at_ 0 0 []) = false ∧
    stepRequest.rst = false ∧ ({ rst := true, initR := 5, stepEn := true } : Pins).rst = true := by decide
/-- A reset edge in the EXECUTE phase, where the registered word is a `Load` (log 14). -/
theorem test_twoCycle_reset_in_execute : twoCycleEdge { rst := true, initR := 5, stepEn := true }
    { core := at_ 3 2 [0x100000009#35], phase := .execute (some 0x100000009#35) } =
      .next { core := at_ 0 5 [0x100000009#35], phase := .fetch } := rfl
/-- The register machine over a ROM takes the host's machine's step, and construction refuses (R50, R78). -/
theorem test_romMachine : stepOver [0x100000003#35] ⟨0#32, 0#32, .running⟩ = .next ⟨1#32, 3#32, .running⟩ ∧
    (romMachine [0x100000003#35] 9#32).reset = (⟨0#32, 9#32, .running⟩ : Regs) ∧
    buildMachine [0#35, 0x600000000#35] 0#32 = .error (.illegalWord 1) := ⟨rfl, rfl, rfl⟩
theorem witness_RomIsAnArgumentOfTheStep : ∃ t, clockEdge stepRequest (at_ 0 0 [0x200000000#35]) = .next t ∧
    edgeOver [0x200000000#35] stepRequest (at_ 0 0 []).regs = .next t.regs ∧ t.rom = [0x200000000#35] :=
  ⟨_, rfl, rfl, rfl⟩
theorem witness_SharingCoresDoNotInteract :
    ({ rom := [0#35], cores := [⟨0, 0, .running⟩, ⟨0, 1, .running⟩] } : Shared).cores[1]? =
      some ⟨0, 1, .running⟩ ∧ (0 : Nat) ≠ 1 := by decide
theorem witness_AssemblerOperandRanges :
    immediateBits (.decimal (-2147483648)) = some 0x80000000#32 ∧
    immediateBits (.decimal 2147483647) = some 0x7FFFFFFF#32 ∧
    targetBits (.decimal 4294967295) = some 0xFFFFFFFF#32 ∧ targetBits (.decimal 0) = some 0#32 ∧
    targetBits (.hex 0xFFFFFFFF) = some 0xFFFFFFFF#32 ∧ targetBits (.hex 0x100000000) = none := by decide
theorem witness_OperandSpellingsAgree : "-1".toList ≠ [] ∧ trimBlanks "-1".toList = "-1".toList := by
  decide

end Sys2Proof.Tests
end

/-! PROOFS. The family of 10_state.md: what a step leaves in ST and PC, the values after reset, and
the status outputs. -/

section
namespace Sys2Proof

/-- A decoded instruction tells the opcode of its word (R72). -/
theorem opField_of_decode_instr {w : IWord} {i : Instr} (h : decode w = .instr i) :
    opField w = opcodeOf i := by
  unfold decode at h
  split at h <;> cases h <;> assumption

/-- Only the opcodes 6 and 7 decode to no instruction (R72, R79). -/
theorem opField_of_decode_illegal {w : IWord} {op : Op} (h : decode w = .illegal op) :
    opField w = 6#3 ∨ opField w = 7#3 := by
  have hn : ¬ legalWord w = true := fun hl => by
    obtain ⟨i, hi⟩ := (decode_legal_iff w).1 hl
    rw [hi] at h
    cases h
  simp only [legalWord, decide_eq_true_eq] at hn
  bv_omega

/-- Every instruction but `Halt` has an opcode of at most 4 (R72). -/
theorem opcodeOf_le_four {i : Instr} (h : i ≠ .halt) : (opcodeOf i).toNat ≤ 4 := by
  cases i with
  | halt => exact absurd rfl h
  | _ => simp [opcodeOf]

end Sys2Proof

namespace Sys2Proof.Machine

/-! ### What an instruction leaves in ST and PC -/

/-- `Halt` is the one instruction that writes ST (R110). -/
theorem exec_st_of_ne_halt {i : Instr} {s t : State} (h : exec i s = .next t) (hi : i ≠ .halt) :
    t.st = s.st := by
  rw [exec_next_iff] at h
  cases i with
  | halt => exact absurd rfl hi
  | _ => simp [h]

/-- `Jump` and a taken `JumpIfNonZero` write their target to PC (R150, R153). -/
theorem exec_pc_taken {i : Instr} {s t : State} {a : Word} (h : exec i s = .next t)
    (ha : i = .jump a ∨ (i = .jumpIfNonZero a ∧ s.r ≠ 0#32)) : t.pc = a := by
  rw [exec_next_iff] at h
  rcases ha with rfl | ⟨rfl, hr⟩
  · simp [h]
  · simp [h, hr]

/-- Every other instruction but `Halt` writes the successor to PC (R104). -/
theorem exec_pc_sequential {i : Instr} {s t : State} (h : exec i s = .next t) (hi : i ≠ .halt)
    (hseq : ∀ a, i ≠ .jump a ∧ (i = .jumpIfNonZero a → s.r = 0#32)) : t.pc = s.pc + 1#32 := by
  rw [exec_next_iff] at h
  cases i with
  | halt => exact absurd rfl hi
  | jump a => exact absurd rfl (hseq a).1
  | jumpIfNonZero a => simp [h, (hseq a).2 rfl]
  | _ => simp [h]

/-! ### What a step can do -/

/-- Everything a step can do, by the ST it ends in: it stops, writing ST alone, out of range, at an
illegal word or at `Halt`; or it stays in RUNNING with the effect of another instruction (R109). -/
theorem clockEdge_step_cases {p : Pins} {s t : State} (hs : stepHappens p s = true)
    (h : clockEdge p s = .next t) :
    (fetchWord s.rom s.pc = none ∧ t = stop .outOfRange s) ∨
    (∃ w op, fetchWord s.rom s.pc = some w ∧ decode w = .illegal op ∧ t = stop .illegal s) ∨
    (∃ w, fetchWord s.rom s.pc = some w ∧ decode w = .instr .halt ∧ t = stop .halted s) ∨
    (∃ w i, fetchWord s.rom s.pc = some w ∧ decode w = .instr i ∧ i ≠ .halt ∧
      exec i s = .next t ∧ t.st = .running) := by
  obtain ⟨-, -, hrun⟩ := (stepHappens_iff p s).1 hs
  rw [clockEdge_step hs] at h
  rcases executeFetched_cases h with miss | illegal | ⟨w, i, hw, hd, he⟩
  · exact .inl miss
  · exact .inr (.inl illegal)
  · by_cases hi : i = .halt
    · subst hi
      exact .inr (.inr (.inl ⟨w, hw, hd, (exec_next_iff _ _ _).1 he⟩))
    · exact .inr (.inr (.inr ⟨w, i, hw, hd, hi, he, (exec_st_of_ne_halt he hi).trans hrun⟩))

/-- A step that ends in a terminal state writes ST alone (R186). -/
theorem clockEdge_step_terminal {p : Pins} {s t : State} (hs : stepHappens p s = true)
    (h : clockEdge p s = .next t) (ht : t.st ≠ .running) : t = stop t.st s := by
  rcases clockEdge_step_cases hs h with ⟨-, rfl⟩ | ⟨_, _, -, -, rfl⟩ | ⟨_, -, -, rfl⟩ |
    ⟨_, _, -, -, -, -, hrun⟩
  · rfl
  · rfl
  · rfl
  · exact absurd hrun ht

/-- A step that ends in RUNNING has fetched and executed an instruction other than `Halt` (R106). -/
theorem clockEdge_step_running {p : Pins} {s t : State} (hs : stepHappens p s = true)
    (h : clockEdge p s = .next t) (ht : t.st = .running) :
    ∃ w i, fetchWord s.rom s.pc = some w ∧ decode w = .instr i ∧ i ≠ .halt ∧
      exec i s = .next t := by
  rcases clockEdge_step_cases hs h with ⟨-, rfl⟩ | ⟨_, _, -, -, rfl⟩ | ⟨_, -, -, rfl⟩ |
    ⟨w, i, hw, hd, hi, he, -⟩
  · cases ht
  · cases ht
  · cases ht
  · exact ⟨w, i, hw, hd, hi, he⟩

/-- An edge that is no reset and no step leaves the state (R101). -/
theorem clockEdge_idle_eq {p : Pins} {s t : State} (hr : p.rst = false)
    (hs : stepHappens p s = false) (h : clockEdge p s = .next t) : t = s := by
  rw [clockEdge_idle hr hs] at h
  cases h; rfl

/-- An edge with `rst = 1` is the reset (R210). -/
theorem clockEdge_reset {p : Pins} (hr : p.rst = true) (s : State) :
    clockEdge p s = .next (resetTo p.initR s) := by
  simp [clockEdge_eq, hr]

/-! ### The status outputs -/

/-- Decoding the code of a run state gives it back (R28). -/
@[simp] theorem runStateOf_stCode (x : RunState) : runStateOf (stCode x) = x := by
  cases x <;> rfl

/-- All four codes are codes of run states (R28). -/
@[simp] theorem stCode_runStateOf (c : BitVec 2) : stCode (runStateOf c) = c := by
  revert c; decide

/-- The code tells the run states apart (R28). -/
theorem stCode_injective : Function.Injective stCode :=
  Function.LeftInverse.injective runStateOf_stCode

/-- The status outputs determine the registers and nothing more (R36). -/
theorem statusPorts_eq_iff (s t : State) : statusPorts s = statusPorts t ↔ s.regs = t.regs := by
  simp only [statusPorts, State.regs, StatusPorts.mk.injEq, Regs.mk.injEq, stCode_injective.eq_iff]
  tauto

/-! ### The obligations -/

/-- Settles O25: the reset and idle edges are the first two transitions, and each way a step can end
(`clockEdge_step_cases`) is one of the listed ones, its opcode read off the decoded word. -/
theorem onlyListedStTransitions : Obligations.OnlyListedStTransitions := by
  unfold Obligations.OnlyListedStTransitions
  intro p s t h
  by_cases hr : p.rst = true
  · rw [clockEdge_reset hr] at h
    cases h
    exact .inl ⟨hr, resetTo_st _ _⟩
  rw [Bool.not_eq_true] at hr
  by_cases hs : stepHappens p s = true
  · refine .inr (.inr ⟨hs, ((stepHappens_iff p s).1 hs).2.2, ?_⟩)
    rcases clockEdge_step_cases hs h with ⟨hn, rfl⟩ | ⟨w, op, hw, hd, rfl⟩ | ⟨w, hw, hd, rfl⟩ |
      ⟨w, i, hw, hd, hi, -, hrun⟩
    · exact .inl ⟨stop_st _ _, (fetchWord_eq_none_iff _ _).1 hn⟩
    · exact .inr ⟨w, hw, .inr (.inr ⟨stop_st _ _, opField_of_decode_illegal hd⟩)⟩
    · exact .inr ⟨w, hw, .inr (.inl ⟨stop_st _ _, opField_of_decode_instr hd⟩)⟩
    · have hop : (opField w).toNat ≤ 4 := by
        rw [opField_of_decode_instr hd]; exact opcodeOf_le_four hi
      exact .inr ⟨w, hw, .inl ⟨hrun, hop⟩⟩
  · rw [Bool.not_eq_true] at hs
    exact .inr (.inl ⟨hr, hs, clockEdge_idle_eq hr hs h⟩)

/-- Settles O26, one clause per kind of edge: reset, idle, a step that stops and a step that goes on. -/
theorem pcWrittenByStepAndResetAlone : Obligations.PcWrittenByStepAndResetAlone := by
  unfold Obligations.PcWrittenByStepAndResetAlone
  intro p s t h
  refine ⟨fun hr => ?reset, fun hr hs => ?idle, fun hs ht => ?stops, fun hs ht => ?goesOn⟩
  case reset =>
    rw [clockEdge_reset hr] at h
    cases h
    exact resetTo_pc _ _
  case idle => rw [clockEdge_idle_eq hr hs h]
  case stops => rw [clockEdge_step_terminal hs h ht, stop_pc]
  case goesOn =>
    obtain ⟨w, i, hw, hd, hi, he⟩ := clockEdge_step_running hs h ht
    exact ⟨w, i, hw, hd, fun _ => exec_pc_taken he, exec_pc_sequential he hi⟩

/-- Settles O14: an edge with `rst = 1` is `resetTo`, whose fields are known. -/
theorem resetValues : Obligations.ResetValues := by
  unfold Obligations.ResetValues
  refine ⟨rfl, rfl, fun p s hr => ⟨_, clockEdge_reset hr s, ?_, ?_, ?_⟩⟩
  · exact resetTo_pc _ _
  · exact resetTo_r _ _
  · exact resetTo_st _ _

/-- Settles O38: the ports are ST's code beside PC and R, and the code is invertible. -/
theorem statusPortsShowTheRegisters : Obligations.StatusPortsShowTheRegisters := by
  unfold Obligations.StatusPortsShowTheRegisters
  exact ⟨fun _ => rfl, rfl, rfl, rfl, rfl, runStateOf_stCode, stCode_runStateOf, statusPorts_eq_iff⟩

end Sys2Proof.Machine
end

/-! PROOFS. The family of 20_memory.md: the address decoder, the ROM interface on a miss, and the ROM
over sequences of edges. -/

section
namespace Sys2Proof.Machine

/-! ### The address decoder -/

/-- The address decoder hits exactly below `N` (R52). -/
theorem romHit_iff (m : Memory) (a : Word) : romHit m a = true ↔ a.toNat < m.length :=
  decide_eq_true_iff

/-- No index hits in a ROM without words (R52). -/
@[simp] theorem romHit_nil (a : Word) : romHit [] a = false := rfl

/-- Below `N` the ROM answers with the word at the index (R54). -/
theorem fetchWord_of_lt {m : Memory} {a : Word} (h : a.toNat < m.length) :
    fetchWord m a = some m[a.toNat] :=
  List.getElem?_eq_getElem h

/-! ### The datapath with `rom_valid = 0` -/

/-- A miss clears the write enable of PC (R111). -/
@[simp] theorem pcNext_miss (c : Control) (arg r oldPc : Word) :
    pcNext c false arg r oldPc = oldPc := rfl

/-- A miss clears the write enable of R (R112). -/
@[simp] theorem rNext_miss (c : Control) (arg r : Word) : rNext c false arg r = r := rfl

/-- A miss puts OUT_OF_RANGE before what the decoder says (R112). -/
@[simp] theorem stNext_miss (c : Control) : stNext c false = .outOfRange := rfl

/-- The edge of the block on a miss, whose right side has no `rom_data` (R53, R112). -/
theorem datapathEdge_miss (p : Pins) (data : IWord) (g : Regs) :
    datapathEdge p false data g =
      if p.rst then resetRegs p.initR
      else if p.stepEn = true ∧ g.st = .running then { g with st := .outOfRange }
      else g := by
  simp only [datapathEdge, pcNext_miss, rNext_miss, stNext_miss, resetRegs]

/-! ### Sequences of edges -/

/-- A sequence that answers has an answer after its first edge (R62). -/
theorem clockEdges_cons_next {p : Pins} {ps : List Pins} {s t : State}
    (h : clockEdges (p :: ps) s = .next t) :
    ∃ u, clockEdge p s = .next u ∧ clockEdges ps u = .next t := by
  cases he : clockEdge p s with
  | next u => exact ⟨u, rfl, by rwa [clockEdges_cons he] at h⟩
  | fault f => cases f
  | refused r => simp [clockEdges, he] at h

/-- What every edge keeps, every sequence of edges keeps. -/
theorem clockEdges_keeps {Inv : State → Prop}
    (hk : ∀ p s t, Inv s → clockEdge p s = .next t → Inv t) (ps : List Pins) {s t : State}
    (hs : Inv s) (h : clockEdges ps s = .next t) : Inv t := by
  induction ps generalizing s with
  | nil => cases h; exact hs
  | cons p ps ih =>
    obtain ⟨u, hu, ht⟩ := clockEdges_cons_next h
    exact ih (hk p s u hs hu) ht

/-- A sequence of edges leaves the ROM (R58). -/
theorem clockEdges_rom {ps : List Pins} {s t : State} (h : clockEdges ps s = .next t) :
    t.rom = s.rom :=
  clockEdges_keeps (Inv := fun u => u.rom = s.rom) (fun _ _ _ hi he => (clockEdge_rom he).trans hi)
    ps rfl h

/-! ### The obligations of the family -/

/-- Settles O29: the whole ROM is kept by each edge, so by a sequence of them. -/
theorem romIsNeverWritten : Obligations.RomIsNeverWritten := by
  unfold Obligations.RomIsNeverWritten
  intro ps s t h
  rw [clockEdges_rom h]
  exact ⟨rfl, fun _ => rfl⟩

/-- Settles O36: on a hit the ROM answers with the word at PC, and on a miss the edge is
`datapathEdge_miss`, which does not mention the data. -/
theorem romDataUnusedOnMiss : Obligations.RomDataUnusedOnMiss := by
  unfold Obligations.RomDataUnusedOnMiss
  refine ⟨fun s hit => ⟨rfl, ?answered⟩, fun p g d e => ?unused, fun p g d hr he hrun => ?stops⟩
  case answered => exact (fetchWord_isSome _ _).trans hit
  case unused => rw [datapathEdge_miss, datapathEdge_miss]
  case stops => simp [datapathEdge_miss, hr, he, hrun]

/-- Settles O37 by the laws of the address decoder and of the ROM's answer. -/
theorem addressDecoderHitsBelowN : Obligations.AddressDecoderHitsBelowN := by
  unfold Obligations.AddressDecoderHitsBelowN
  intro m a
  refine ⟨romHit_iff m a, (fetchWord_eq_none_iff m a).2, fetchWord_of_lt, ?empty⟩
  case empty => rintro rfl; exact romHit_nil a

end Sys2Proof.Machine
end

/-! PROOFS. The family of 30_encoding.md: the opcode map, the canonical words, unused operands and the
illegal opcodes. -/

section
namespace Sys2Proof

/-! ### The fields of a word -/

@[simp] theorem opField_append (op : Op) (arg : Word) : opField (op ++ arg : IWord) = op :=
  opField_makeWord op arg

@[simp] theorem argField_append (op : Op) (arg : Word) : argField (op ++ arg : IWord) = arg :=
  argField_makeWord op arg

/-- The operand field is the low 32 bits (R70). -/
theorem argField_eq_setWidth (w : IWord) : argField w = w.setWidth 32 :=
  (BitVec.setWidth_eq_extractLsb' (by decide)).symm

/-- Two words are equal iff their two fields are (R70). -/
theorem iword_eq_iff (w v : IWord) : w = v ↔ opField w = opField v ∧ argField w = argField v := by
  refine ⟨fun h => h ▸ ⟨rfl, rfl⟩, fun ⟨hop, harg⟩ => ?_⟩
  rw [← makeWord_fields w, hop, harg, makeWord_fields]

/-- The mask `0x7_0000_0000` keeps the opcode field and clears the operand field (R72). -/
theorem and_opMask (w : IWord) : w &&& 0x700000000#35 = (opField w ++ 0#32 : IWord) := by
  calc w &&& 0x700000000#35
      = (opField w ++ argField w : IWord) &&& (7#3 ++ 0#32 : IWord) := by
        conv_lhs => rw [← makeWord_fields w]
        rfl
    _ = ((opField w &&& 7#3) ++ (argField w &&& 0#32) : IWord) := BitVec.and_append
    _ = (opField w ++ 0#32 : IWord) := by
        rw [show (7#3) = BitVec.allOnes 3 from rfl, BitVec.and_allOnes, BitVec.and_zero]

/-- A word matches `op << 32` under the mask only with `op` in its opcode field (R72). -/
theorem opField_of_and_opMask {w : IWord} {op : Op}
    (h : w &&& 0x700000000#35 = (op ++ 0#32 : IWord)) : opField w = op := by
  rw [and_opMask] at h
  simpa using congrArg opField h

/-! ### What the decoder answers -/

/-- A word is an instruction iff it has its opcode and, where the operand is used, its operand
(R72, R75). -/
theorem decode_eq_instr_iff (w : IWord) (i : Instr) :
    decode w = .instr i ↔
      opField w = opcodeOf i ∧ (operandUnused (opcodeOf i) = false → argField w = operandOf i) := by
  constructor
  · intro h
    refine ⟨opField_of_decode_instr h, ?_⟩
    unfold decode at h
    split at h <;> cases h
    exacts [nofun, fun _ => rfl, nofun, fun _ => rfl, fun _ => rfl, nofun]
  · rintro ⟨hop, harg⟩
    cases i with
    | nop | dec | halt => simp [decode, hop, opcodeOf]
    | load _ | jumpIfNonZero _ | jump _ => simp [decode, hop, opcodeOf, harg rfl, operandOf]

/-- A word that matches the opcode of an instruction under the mask, and has its operand in bits 31..0
where it is used, is that instruction (R72, R73, R74). -/
theorem decode_of_and_opMask (w : IWord) (op : Op) (i : Instr) (hop : opcodeOf i = op)
    (harg : operandUnused op = false → w.setWidth 32 = operandOf i)
    (h : w &&& 0x700000000#35 = (op ++ 0#32 : IWord)) : decode w = .instr i := by
  subst hop
  rw [decode_eq_instr_iff, argField_eq_setWidth]
  exact ⟨opField_of_and_opMask h, harg⟩

/-- The opcodes 6 and 7 are answered with the opcode itself (R79). -/
theorem decode_of_illegal_opField {w : IWord} {op : Op} (hw : opField w = op)
    (h : op = 6#3 ∨ op = 7#3) : decode w = .illegal op := by
  rcases h with rfl | rfl <;> simp [decode, hw]

/-- The opcodes 6 and 7 make no legal word (R78). -/
theorem not_legalWord_of_illegal_opField {w : IWord} {op : Op} (hw : opField w = op)
    (h : op = 6#3 ∨ op = 7#3) : legalWord w = false := by
  rcases h with rfl | rfl <;> simp [legalWord, hw]

/-- The unused operands are those of the opcodes 0, 2 and 5 (R75). -/
theorem operandUnused_iff (op : Op) : operandUnused op = true ↔ op = 0#3 ∨ op = 2#3 ∨ op = 5#3 := by
  simp [operandUnused, or_assoc]

/-- A word whose operand is unused is an instruction, and the same one with any other operand (R75). -/
theorem decode_of_operandUnused {op : Op} (h : operandUnused op = true) :
    ∃ i, ∀ x : Word, decode (op ++ x : IWord) = .instr i := by
  rcases (operandUnused_iff op).1 h with rfl | rfl | rfl
  · exact ⟨.nop, fun x => by simp [decode]⟩
  · exact ⟨.dec, fun x => by simp [decode]⟩
  · exact ⟨.halt, fun x => by simp [decode]⟩

/-! ### The canonical words -/

/-- Decoding the canonical word of an instruction gives the instruction (R77). -/
@[simp] theorem decode_encode (i : Instr) : decode (encode i) = .instr i :=
  (decode_eq_instr_iff _ _).2 ⟨opField_encode i, fun _ => argField_encode i⟩

/-- An unused operand is encoded as 0 (R77). -/
theorem operandOf_of_operandUnused {i : Instr} (h : operandUnused (opcodeOf i) = true) :
    operandOf i = 0#32 := by
  cases i with
  | nop | dec | halt => rfl
  | load _ | jumpIfNonZero _ | jump _ => cases h

/-- What a canonical word is, by its fields (R77). -/
theorem canonical_iff (w : IWord) :
    canonical w = true ↔
      (opField w).toNat ≤ 5 ∧
        (opField w = 0#3 ∨ opField w = 2#3 ∨ opField w = 5#3 → argField w = 0#32) := by
  rw [← operandUnused_iff]
  simp [canonical, legalWord, imp_iff_not_or]

/-- Every instruction is encoded by a canonical word (R77). -/
theorem canonical_encode (i : Instr) : canonical (encode i) = true :=
  match i with
  | .nop => Laws.EncodesCanonically.nop.2
  | .load imm => (Laws.EncodesCanonically.load imm).2
  | .dec => Laws.EncodesCanonically.dec.2
  | .jumpIfNonZero a => (Laws.EncodesCanonically.jumpIfNonZero a).2
  | .jump a => (Laws.EncodesCanonically.jump a).2
  | .halt => Laws.EncodesCanonically.halt.2

/-- Encoding the instruction of a canonical word gives the word back (R77). -/
theorem encode_of_decode {w : IWord} {i : Instr} (hc : canonical w = true)
    (hd : decode w = .instr i) : encode i = w := by
  obtain ⟨hop, harg⟩ := (decode_eq_instr_iff w i).1 hd
  rw [iword_eq_iff, opField_encode, argField_encode]
  refine ⟨hop.symm, ?_⟩
  cases hu : operandUnused (opcodeOf i) with
  | false => exact (harg hu).symm
  | true =>
    have hzero : argField w = 0#32 := ((canonical_iff w).1 hc).2 (by rwa [hop, ← operandUnused_iff])
    rw [operandOf_of_operandUnused hu, hzero]

/-- The words that come back from decoding and encoding are the canonical ones (R77). -/
theorem encode_decode_iff_canonical (w : IWord) :
    (∃ i, decode w = .instr i ∧ encode i = w) ↔ canonical w = true := by
  constructor
  · rintro ⟨i, -, rfl⟩
    exact canonical_encode i
  · intro hc
    have hlegal : legalWord w = true := by
      simpa [legalWord] using ((canonical_iff w).1 hc).1
    obtain ⟨i, hd⟩ := (decode_legal_iff w).1 hlegal
    exact ⟨i, hd, encode_of_decode hc hd⟩

end Sys2Proof

namespace Sys2Proof.Machine

/-- The assembler's words are the encodings of instructions (R77, R82). -/
theorem mem_assemble {text : List Char} {ws : List IWord} (h : assemble text = .ok ws) {w : IWord}
    (hw : w ∈ ws) : ∃ i, encode i = w := by
  unfold assemble at h
  split at h
  · cases h
  · cases h
    obtain ⟨i, -, hi⟩ := List.mem_map.1 hw
    exact ⟨i, hi⟩

/-! ### Steps over equal registers, and steps at an illegal word -/

/-- An instruction completes, and what it does to the registers does not depend on the ROM (R105). -/
theorem exec_regs_congr (i : Instr) {s u : State} (h : s.regs = u.regs) :
    ∃ t v, exec i s = .next t ∧ exec i u = .next v ∧ t.regs = v.regs := by
  have hu : u = s.regs.withRom u.rom := by rw [h, regs_withRom]
  rw [hu]
  cases i <;> exact ⟨_, _, rfl, rfl, rfl⟩

/-- In a terminal state a step request changes nothing (R101). -/
theorem step_of_ne_running {s : State} (h : s.st ≠ .running) : step s = .next s :=
  clockEdge_idle rfl (by simp [stepHappens, h])

/-- Steps at words that decode to one instruction, from equal registers, end in equal registers. -/
theorem step_regs_congr {s u : State} {w v : IWord} {i : Instr} (h : s.regs = u.regs)
    (hw : fetchWord s.rom s.pc = some w) (hv : fetchWord u.rom u.pc = some v)
    (dw : decode w = .instr i) (dv : decode v = .instr i) :
    ∃ t t', step s = .next t ∧ step u = .next t' ∧ t.regs = t'.regs := by
  have hst : s.st = u.st := congrArg Regs.st h
  by_cases hrun : s.st = .running
  · rw [step_decoded hrun hw dw, step_decoded (hst ▸ hrun) hv dv]
    exact exec_regs_congr i h
  · exact ⟨s, u, step_of_ne_running hrun, step_of_ne_running (hst ▸ hrun), h⟩

/-- A fetched illegal word writes ST alone (R184). -/
theorem executeFetched_illegal {w : IWord} {op : Op} (h : decode w = .illegal op) (s : State) :
    executeFetched (some w) s = .next (stop .illegal s) := by
  simp only [executeFetched, h]

/-- A fetched illegal word is not traced (R184, R195). -/
theorem tracePort_illegal {p : Pins} {s : State} {w : IWord} (hw : fetchWord s.rom s.pc = some w)
    (h : legalWord w = false) : tracePort p s = none := by
  simp [tracePort, traceFetched, hw, h]

/-! ### The obligations of the family -/

/-- Settles O10: the canonical words are `encode` written out, `decode_encode` is the round trip, and
the words that come back are the canonical ones, of which the assembler's are some. -/
theorem decodeAndEncodeAgree : Obligations.DecodeAndEncodeAgree := by
  unfold Obligations.DecodeAndEncodeAgree
  refine ⟨?words, decode_encode, fun w => ?unchanged, fun text ws h w hw => ?assembled⟩
  case words => exact ⟨rfl, fun _ => rfl, rfl, fun _ => rfl, fun _ => rfl, rfl⟩
  case unchanged => exact (encode_decode_iff_canonical w).trans (canonical_iff w)
  case assembled =>
    obtain ⟨i, rfl⟩ := mem_assemble h hw
    exact ⟨i, decode_encode i, rfl⟩

/-- Settles O9: the masked word tells the opcode field, and with it the decoder's answer. -/
theorem opcodeMapByMaskAndMatch : Obligations.OpcodeMapByMaskAndMatch := by
  unfold Obligations.OpcodeMapByMaskAndMatch
  intro w
  exact ⟨decode_of_and_opMask w 0#3 .nop rfl nofun,
    decode_of_and_opMask w 1#3 (.load _) rfl fun _ => rfl,
    decode_of_and_opMask w 2#3 .dec rfl nofun,
    decode_of_and_opMask w 3#3 (.jumpIfNonZero _) rfl fun _ => rfl,
    decode_of_and_opMask w 4#3 (.jump _) rfl fun _ => rfl,
    decode_of_and_opMask w 5#3 .halt rfl nofun,
    fun h => decode_of_illegal_opField (op := 6#3) (opField_of_and_opMask h) (.inl rfl),
    fun h => decode_of_illegal_opField (op := 7#3) (opField_of_and_opMask h) (.inr rfl)⟩

/-- Settles O12: with an unused operand both words decode to one instruction, and an instruction acts on
the registers alone. -/
theorem unusedOperandNeverMatters : Obligations.UnusedOperandNeverMatters := by
  unfold Obligations.UnusedOperandNeverMatters
  intro s u op x y hop
  obtain ⟨i, hi⟩ := decode_of_operandUnused ((operandUnused_iff op).2 hop)
  exact ⟨(hi x).trans (hi y).symm, fun h hs hu => step_regs_congr h hs hu (hi x) (hi y)⟩

/-- Settles O23: the word is illegal, so no instruction, refused by the construction check, and stopped
at untraced by a step. -/
theorem illegalOpcodeStopsTheStep : Obligations.IllegalOpcodeStopsTheStep := by
  unfold Obligations.IllegalOpcodeStopsTheStep
  intro op x hop
  have hd : decode (op ++ x : IWord) = .illegal op := decode_of_illegal_opField (opField_append op x) hop
  have hl : legalWord (op ++ x : IWord) = false :=
    not_legalWord_of_illegal_opField (opField_append op x) hop
  refine ⟨fun i hi => ?noInstr, fun ws hmem => ?refused, fun s hrun hw => ⟨?stops, ?untraced⟩⟩
  case noInstr => rw [hd] at hi; cases hi
  case refused =>
    rw [← Bool.not_eq_true, wellFormedProgram_iff]
    rintro ⟨hlegal, -⟩
    exact absurd (hlegal _ hmem) (by simp [hl])
  case stops => rw [step_running hrun, hw, executeFetched_illegal hd]; rfl
  case untraced => exact tracePort_illegal hw hl

end Sys2Proof.Machine
end

/-! PROOFS. The family of 40_step.md: an edge without a step, and the step of R109 case by case. -/

section
namespace Sys2Proof.Machine

/-! ### Edges without a step -/

/-- The terminal values of ST are all but RUNNING (R15, R28). -/
theorem terminal_iff (x : RunState) : terminal x = true ↔ x ≠ .running := by
  cases x <;> decide

/-- Without `step_en`, or outside RUNNING, no step happens (R100). -/
theorem stepHappens_eq_false {p : Pins} {s : State} (h : p.stepEn = false ∨ s.st ≠ .running) :
    stepHappens p s = false := by
  rw [← Bool.not_eq_true, stepHappens_iff]
  rintro ⟨-, hen, hrun⟩
  rcases h with hoff | hterminal
  · rw [hoff] at hen; cases hen
  · exact hterminal hrun

/-- With neither reset nor step the edge keeps the state and drives no record (R101, R195). -/
theorem edge_of_idle {p : Pins} {s : State} (hr : p.rst = false)
    (h : p.stepEn = false ∨ s.st ≠ .running) :
    clockEdge p s = .next s ∧ tracePort p s = none := by
  have hs := stepHappens_eq_false h
  exact ⟨clockEdge_idle hr hs, by simp [tracePort, hs]⟩

/-! ### The state and the trace record of a step -/

/-- The trace port of an edge on which a step happens (R195). -/
theorem tracePort_step {p : Pins} {s : State} (hs : stepHappens p s = true) :
    tracePort p s = traceFetched (fetchWord s.rom s.pc) s := by
  simp [tracePort, hs]

/-- A step that the address decoder misses writes ST alone and is not traced (R102). -/
theorem edge_of_miss {p : Pins} {s : State} (hs : stepHappens p s = true)
    (hw : fetchWord s.rom s.pc = none) :
    clockEdge p s = .next (stop .outOfRange s) ∧ tracePort p s = none := by
  rw [clockEdge_step hs, tracePort_step hs, hw]
  exact ⟨rfl, rfl⟩

/-- A step that fetches the opcode 6 or 7 writes ST alone and is not traced (R184). -/
theorem edge_of_illegal {p : Pins} {s : State} {w : IWord} {op : Op}
    (hs : stepHappens p s = true) (hw : fetchWord s.rom s.pc = some w) (hop : opField w = op)
    (h : op = 6#3 ∨ op = 7#3) :
    clockEdge p s = .next (stop .illegal s) ∧ tracePort p s = none := by
  refine ⟨?_, tracePort_illegal hw (not_legalWord_of_illegal_opField hop h)⟩
  rw [clockEdge_step hs, hw, executeFetched_illegal (decode_of_illegal_opField hop h)]

/-- A fetched instruction has its effect (R105). -/
theorem executeFetched_instr {w : IWord} {i : Instr} (h : decode w = .instr i) (s : State) :
    executeFetched (some w) s = exec i s := by
  simp only [executeFetched, h]

/-- A step that fetches an instruction commits what the instruction leaves, and its record is taken
from that state (R105, R195). -/
theorem edge_of_instr {p : Pins} {s t : State} {w : IWord} {i : Instr}
    (hs : stepHappens p s = true) (hw : fetchWord s.rom s.pc = some w)
    (hd : decode w = .instr i) (he : exec i s = .next t) :
    clockEdge p s = .next t ∧ tracePort p s = some (traceRecordOf s w t) := by
  have hlegal : legalWord w = true := (decode_legal_iff w).2 ⟨i, hd⟩
  have hexec : executeFetched (some w) s = .next t := (executeFetched_instr hd s).trans he
  rw [clockEdge_step hs, tracePort_step hs, hw]
  exact ⟨hexec, by simp [traceFetched, hlegal, hexec]⟩

/-- A step that stays in RUNNING is SEQ or BRANCH by its next PC (R107, R196). -/
theorem traceKindOf_running {t : State} (h : t.st = .running) (oldPc : Word) :
    traceKindOf oldPc t = if t.pc = oldPc + 1#32 then .seq else .branch := by
  simp [traceKindOf, h]

/-! ### The five opcodes that continue -/

/-- `next` of R109: the operand for a taken transfer, and the successor otherwise. -/
def continueNext (op : Op) (arg : Word) (s : State) : Word :=
  if op = 4#3 ∨ (op = 3#3 ∧ s.r ≠ 0#32) then arg else s.pc + 1#32

/-- R after a step of R109 that continues: written by `Load` and `Dec` alone. -/
def continueR (op : Op) (arg : Word) (s : State) : Word :=
  if op = 1#3 then arg else if op = 2#3 then s.r - 1#32 else s.r

/-- The opcodes up to 4 are instructions that write `continueNext` to PC and `continueR` to R (R109). -/
theorem exec_of_opcode_le_four {op : Op} (h : op.toNat ≤ 4) (arg : Word) (s : State) :
    ∃ i, decode (op ++ arg : IWord) = .instr i ∧
      exec i s = .next { s with pc := continueNext op arg s, r := continueR op arg s } := by
  rcases op_cases op with rfl | rfl | rfl | rfl | rfl | rfl | rfl | rfl
  · exact ⟨.nop, by simp [decode], rfl⟩
  · exact ⟨.load arg, by simp [decode], rfl⟩
  · exact ⟨.dec, by simp [decode], rfl⟩
  · refine ⟨.jumpIfNonZero arg, by simp [decode], (exec_next_iff _ _ _).2 ?_⟩
    by_cases hr : s.r = 0#32 <;> simp [continueNext, continueR, commit, hr]
  · exact ⟨.jump arg, by simp [decode], rfl⟩
  all_goals exact absurd h (by decide)

/-! ### The obligations of the family -/

/-- Settles O18: the idle edge (`edge_of_idle`), then the step by what the ROM answers: a miss
(`edge_of_miss`), an illegal word (`edge_of_illegal`) or an instruction (`edge_of_instr`). -/
theorem stepIsTheFunctionOfR109 : Obligations.StepIsTheFunctionOfR109 := by
  unfold Obligations.StepIsTheFunctionOfR109
  intro p s hr
  refine ⟨edge_of_idle hr, fun hen hrun => ?_⟩
  have hs : stepHappens p s = true := (stepHappens_iff p s).2 ⟨hr, hen, hrun⟩
  refine ⟨fun hpc => edge_of_miss hs ((fetchWord_eq_none_iff _ _).2 hpc), fun op arg hw =>
    ⟨edge_of_illegal hs hw (opField_append op arg), fun hop => ?halt, fun hop => ?continues⟩⟩
  case halt =>
    subst hop
    obtain ⟨hedge, htrace⟩ := edge_of_instr hs hw (i := .halt) (by simp [decode]) rfl
    exact ⟨hedge, by simp [htrace, traceRecordOf, traceKindOf]⟩
  case continues =>
    obtain ⟨i, hd, he⟩ := exec_of_opcode_le_four hop arg s
    obtain ⟨hedge, htrace⟩ := edge_of_instr hs hw hd he
    refine ⟨continueNext op arg s, continueR op arg s, rfl, rfl, hedge, ?_⟩
    simp [htrace, traceRecordOf, traceKindOf_running, hrun]

/-- Settles O16: ST terminal is ST other than RUNNING, so either way the edge is idle. -/
theorem edgeWithoutStepChangesNothing : Obligations.EdgeWithoutStepChangesNothing := by
  unfold Obligations.EdgeWithoutStepChangesNothing
  intro p s hr hidle
  rw [terminal_iff] at hidle
  exact edge_of_idle hr hidle

end Sys2Proof.Machine
end

/-! PROOFS. The family of 41_register_ops.md: `Nop`, `Load` and `Dec`, each with its step and its trace
record, and the signed reading of `Dec`. -/

section
namespace Sys2Proof.Machine

/-! ### What the three instructions leave -/

/-- `Nop` writes the successor to PC (R130). -/
theorem exec_nop (s : State) : exec .nop s = .next { s with pc := s.pc + 1#32 } := rfl

/-- `Load` writes its operand to R and the successor to PC (R133). -/
theorem exec_load (imm : Word) (s : State) :
    exec (.load imm) s = .next { s with r := imm, pc := s.pc + 1#32 } := rfl

/-- `Dec` writes R - 1 to R and the successor to PC (R136). -/
theorem exec_dec (s : State) :
    exec .dec s = .next { s with r := s.r - 1#32, pc := s.pc + 1#32 } := rfl

/-- A step on an instruction that leaves `v` in R and advances PC does that, and is traced as SEQ with
`v` (R106, R107). -/
theorem step_of_advance {s : State} {op : Op} {arg : Word} {i : Instr} (v : Word)
    (hd : decode (op ++ arg : IWord) = .instr i)
    (he : exec i s = .next { s with r := v, pc := s.pc + 1#32 })
    (hrun : s.st = .running) (hw : fetchWord s.rom s.pc = some (op ++ arg)) :
    step s = .next { s with r := v, pc := s.pc + 1#32 } ∧
    tracePort stepRequest s = some
      { pc := s.pc, op := op, operand := arg, r := v, nextPc := s.pc + 1#32, kind := .seq } := by
  have hs : stepHappens stepRequest s = true := (stepHappens_iff _ _).2 ⟨rfl, rfl, hrun⟩
  obtain ⟨hedge, htrace⟩ := edge_of_instr hs hw hd he
  exact ⟨hedge, by simp [htrace, traceRecordOf, traceKindOf_running, hrun]⟩

/-! ### The arithmetic of `Dec` -/

/-- R - 1 modulo `2^32`, as a sum of numbers (R136). -/
theorem sub_one_eq_ofNat (v : Word) : v - 1#32 = BitVec.ofNat 32 (v.toNat + (2 ^ 32 - 1)) := by
  rw [BitVec.sub_def, Nat.add_comm]
  rfl

/-- Above `-2^31`, R - 1 is one less as a signed number (R137). -/
theorem toInt_sub_one_of_gt {v : Word} (h : -(2 ^ 31) < v.toInt) :
    (v - 1#32).toInt = v.toInt - 1 := by
  have hlt : v.toInt < 2 ^ 31 := BitVec.toInt_lt
  rw [BitVec.toInt_sub, show (1#32).toInt = 1 from rfl]
  exact Int.bmod_eq_of_le (by omega) (by omega)

/-- At `-2^31`, R - 1 wraps to `2^31 - 1` (R137, D9). -/
theorem toInt_sub_one_of_eq_min {v : Word} (h : v.toInt = -(2 ^ 31)) :
    (v - 1#32).toInt = 2 ^ 31 - 1 := by
  have hv : v = 0x80000000#32 := BitVec.eq_of_toInt_eq h
  rw [hv]
  decide

/-! ### The obligations of the family -/

/-- Settles O4: above the least signed value `toInt_sub_one_of_gt`, which zero is a case of, and at it
`toInt_sub_one_of_eq_min`. -/
theorem decSignedArithmeticLaw : Obligations.DecSignedArithmeticLaw := by
  unfold Obligations.DecSignedArithmeticLaw
  intro s
  refine ⟨_, exec_dec s, ?additive, toInt_sub_one_of_gt, toInt_sub_one_of_eq_min, fun hzero => ?zero⟩
  case additive => exact BitVec.sub_eq_add_neg s.r 1#32
  case zero => rw [toInt_sub_one_of_gt (by rw [hzero]; decide), hzero]; rfl

/-- Settles O1: `exec_nop`, and `step_of_advance` with R as it was. -/
theorem nopAdvancesPcAlone : Obligations.NopAdvancesPcAlone := by
  unfold Obligations.NopAdvancesPcAlone
  refine ⟨rfl, fun s x => ⟨exec_nop s, ?step⟩⟩
  case step => exact step_of_advance s.r (by simp [decode]) (exec_nop s)

/-- Settles O2: `exec_load`, and `step_of_advance` with the operand in R. -/
theorem loadWritesItsImmediate : Obligations.LoadWritesItsImmediate := by
  unfold Obligations.LoadWritesItsImmediate
  refine fun s imm => ⟨rfl, exec_load imm s, ?step⟩
  case step => exact step_of_advance imm (by simp [decode]) (exec_load imm s)

/-- Settles O3: `exec_dec` with the difference written as a sum, and `step_of_advance` with R - 1. -/
theorem decSubtractsOneAndWraps : Obligations.DecSubtractsOneAndWraps := by
  unfold Obligations.DecSubtractsOneAndWraps
  refine ⟨rfl, fun s x => ⟨?exec, ?step⟩⟩
  case exec => rw [← sub_one_eq_ofNat]; exact exec_dec s
  case step => exact step_of_advance (s.r - 1#32) (by simp [decode]) (exec_dec s)

end Sys2Proof.Machine
end

/-! PROOFS. The family of 42_control_transfer.md: `JumpIfNonZero`, `Jump` and `Halt`, each with its step
and its trace record, and a target outside the program. -/

section
namespace Sys2Proof.Machine

/-! ### What the three instructions leave -/

/-- `Jump` writes its target to PC (R153). -/
theorem exec_jump (a : Word) (s : State) : exec (.jump a) s = .next { s with pc := a } := rfl

/-- With R not zero `JumpIfNonZero` writes its target to PC (R150). -/
theorem exec_jumpIfNonZero_of_ne {s : State} (h : s.r ≠ 0#32) (a : Word) :
    exec (.jumpIfNonZero a) s = .next { s with pc := a } := by
  simp [exec_next_iff, commit, h]

/-- With R zero `JumpIfNonZero` writes the successor to PC (R150). -/
theorem exec_jumpIfNonZero_of_eq {s : State} (h : s.r = 0#32) (a : Word) :
    exec (.jumpIfNonZero a) s = .next { s with pc := s.pc + 1#32 } := by
  simp [exec_next_iff, commit, h]

/-- `Halt` writes HALTED to ST (R156). -/
theorem exec_halt (s : State) : exec .halt s = .next { s with st := .halted } := rfl

/-! ### Their steps and trace records -/

/-- A step request in state RUNNING is a step (R100). -/
theorem stepHappens_stepRequest {s : State} (h : s.st = .running) :
    stepHappens stepRequest s = true :=
  (stepHappens_iff _ _).2 ⟨rfl, rfl, h⟩

/-- A step on an instruction that writes `next` to PC alone does that, and is traced as SEQ or BRANCH by
whether `next` is the successor (R107). -/
theorem step_of_transfer {s : State} {op : Op} {arg next : Word} {i : Instr}
    (hd : decode (op ++ arg : IWord) = .instr i) (he : exec i s = .next { s with pc := next })
    (hrun : s.st = .running) (hw : fetchWord s.rom s.pc = some (op ++ arg)) :
    step s = .next { s with pc := next } ∧
    tracePort stepRequest s = some
      { pc := s.pc, op := op, operand := arg, r := s.r, nextPc := next
        kind := if next = s.pc + 1#32 then .seq else .branch } := by
  obtain ⟨hedge, htrace⟩ := edge_of_instr (stepHappens_stepRequest hrun) hw hd he
  exact ⟨hedge, by simp [htrace, traceRecordOf, traceKindOf_running, hrun]⟩

/-- A step with PC at or beyond `N` ends in OUT_OF_RANGE and writes nothing else (R102). -/
theorem step_of_pc_out_of_range {s : State} (hrun : s.st = .running)
    (hpc : s.rom.length ≤ s.pc.toNat) : step s = .next { s with st := .outOfRange } :=
  (edge_of_miss (stepHappens_stepRequest hrun) ((fetchWord_eq_none_iff _ _).2 hpc)).1

/-! ### The obligations of the family -/

/-- Settles O22: either transfer commits its target with ST still RUNNING, and from there the range check
of the next step fails. -/
theorem farTargetFoundOneStepLater : Obligations.FarTargetFoundOneStepLater := by
  unfold Obligations.FarTargetFoundOneStepLater
  intro s w a hrun hw htaken hfar
  refine ⟨?_, step_of_pc_out_of_range hrun hfar⟩
  rcases htaken with hd | ⟨hd, hr⟩
  · exact (step_decoded hrun hw hd).trans (exec_jump a s)
  · exact (step_decoded hrun hw hd).trans (exec_jumpIfNonZero_of_ne hr a)

/-- Settles O5: R is zero at entry or not, and `step_of_transfer` with the successor or the target. -/
theorem jumpIfNonZeroTestsRAtEntry : Obligations.JumpIfNonZeroTestsRAtEntry := by
  unfold Obligations.JumpIfNonZeroTestsRAtEntry
  intro s a
  have hd : decode (0b011#3 ++ a : IWord) = .instr (.jumpIfNonZero a) := by simp [decode]
  refine ⟨rfl, fun hr => exec_jumpIfNonZero_of_ne hr a, fun hr => exec_jumpIfNonZero_of_eq hr a,
    fun hrun hw => ?_⟩
  by_cases hr : s.r = 0#32
  · exact ⟨s.pc + 1#32, fun hne => absurd hr hne, fun _ => rfl,
      step_of_transfer hd (exec_jumpIfNonZero_of_eq hr a) hrun hw⟩
  · exact ⟨a, fun _ => rfl, fun hz => absurd hz hr,
      step_of_transfer hd (exec_jumpIfNonZero_of_ne hr a) hrun hw⟩

/-- Settles O6: `exec_jump`, and `step_of_transfer` with the target, whatever R holds. -/
theorem jumpSetsPcToItsTarget : Obligations.JumpSetsPcToItsTarget := by
  unfold Obligations.JumpSetsPcToItsTarget
  refine fun s a => ⟨rfl, exec_jump a s, ?step⟩
  case step => exact step_of_transfer (by simp [decode]) (exec_jump a s)

/-- Settles O7: `exec_halt`, its step by `edge_of_instr`, and no step from HALTED. -/
theorem haltWritesStAlone : Obligations.HaltWritesStAlone := by
  unfold Obligations.HaltWritesStAlone
  refine ⟨rfl, fun s x => ⟨exec_halt s, fun hrun hw => ?_⟩⟩
  have hd : decode (0b101#3 ++ x : IWord) = .instr .halt := by simp [decode]
  obtain ⟨hedge, htrace⟩ := edge_of_instr (stepHappens_stepRequest hrun) hw hd (exec_halt s)
  refine ⟨hedge, step_of_ne_running ?terminal, ?record⟩
  case terminal => nofun
  case record => simp [htrace, traceRecordOf, traceKindOf]

end Sys2Proof.Machine
end

/-! PROOFS. The family of 60_exceptions.md: how long a terminal state lasts, what puts PC outside the
program, the order of a step's checks, and the trace record. -/

section
namespace Sys2Proof

/-- `Halt` alone has opcode 5 (R72). -/
theorem opcodeOf_eq_five_iff (i : Instr) : opcodeOf i = 5#3 ↔ i = .halt := by
  cases i <;> simp [opcodeOf]

/-- A word is an instruction iff its opcode is 0 to 5 (R72, R79). -/
theorem exists_decode_instr_iff (w : IWord) :
    (∃ i, decode w = .instr i) ↔ (opField w).toNat ≤ 5 := by
  rw [← decode_legal_iff, legalWord, decide_eq_true_eq]

end Sys2Proof

namespace Sys2Proof.Machine

/-! ### Every edge answers -/

/-- Every instruction completes (R105). -/
theorem exec_total (i : Instr) (s : State) : ∃ t, exec i s = .next t := by
  obtain ⟨t, -, he, -, -⟩ := exec_regs_congr i (rfl : s.regs = s.regs)
  exact ⟨t, he⟩

/-- Whatever the ROM answers, the step completes (R109). -/
theorem executeFetched_total (answer : Option IWord) (s : State) :
    ∃ t, executeFetched answer s = .next t := by
  cases answer with
  | none => exact ⟨_, rfl⟩
  | some w =>
    cases hd : decode w with
    | illegal op => exact ⟨_, executeFetched_illegal hd s⟩
    | instr i => rw [executeFetched_instr hd]; exact exec_total i s

/-- Every edge answers a next state (R101, R109, R210). -/
theorem clockEdge_total (p : Pins) (s : State) : ∃ t, clockEdge p s = .next t := by
  rw [clockEdge_eq]
  split
  · exact ⟨_, rfl⟩
  · split
    · exact executeFetched_total _ s
    · exact ⟨_, rfl⟩

/-- Every sequence of edges answers a next state (R62). -/
theorem clockEdges_total (ps : List Pins) (s : State) : ∃ t, clockEdges ps s = .next t := by
  induction ps generalizing s with
  | nil => exact ⟨s, rfl⟩
  | cons p ps ih =>
    obtain ⟨u, hu⟩ := clockEdge_total p s
    rw [clockEdges_cons hu]
    exact ih u

/-- A sequence of edges goes on from where its first part ends (R62). -/
theorem clockEdges_append {ps : List Pins} {s u : State} (h : clockEdges ps s = .next u)
    (qs : List Pins) : clockEdges (ps ++ qs) s = clockEdges qs u := by
  induction ps generalizing s with
  | nil => cases h; rfl
  | cons p ps ih =>
    obtain ⟨v, hv, hu⟩ := clockEdges_cons_next h
    rw [List.cons_append, clockEdges_cons hv]
    exact ih hu

/-- Edges without reset leave a terminal state as it is (R101, R187). -/
theorem clockEdges_of_terminal {ps : List Pins} {s : State} (ht : terminal s.st = true)
    (hr : ∀ p ∈ ps, p.rst = false) : clockEdges ps s = .next s := by
  induction ps with
  | nil => rfl
  | cons p ps ih =>
    obtain ⟨hp, hps⟩ := List.forall_mem_cons.1 hr
    have hedge : clockEdge p s = .next s := (edge_of_idle hp (.inr ((terminal_iff _).1 ht))).1
    rw [clockEdges_cons hedge]
    exact ih hps

/-! ### PC outside the program -/

/-- A step ends in OUT_OF_RANGE iff PC is at or beyond `N` at its entry (R182). -/
theorem clockEdge_step_outOfRange_iff {p : Pins} {s t : State} (hs : stepHappens p s = true)
    (h : clockEdge p s = .next t) : t.st = .outOfRange ↔ s.rom.length ≤ s.pc.toNat := by
  rw [← fetchWord_eq_none_iff]
  rcases clockEdge_step_cases hs h with ⟨hw, rfl⟩ | ⟨w, _, hw, -, rfl⟩ | ⟨w, hw, -, rfl⟩ |
    ⟨w, _, hw, -, -, -, hrun⟩
  · simp [hw]
  · simp [hw]
  · simp [hw]
  · simp [hw, hrun]

/-- An instruction other than `Halt` commits its own target or advances PC by one (R104, R182). -/
theorem exec_pc_ways {i : Instr} {s t : State} (h : exec i s = .next t) (hi : i ≠ .halt) :
    (i = .jump t.pc ∨ (i = .jumpIfNonZero t.pc ∧ s.r ≠ 0#32)) ∨
    (t.pc = s.pc + 1#32 ∧
      (i = .nop ∨ (∃ imm, i = .load imm) ∨ i = .dec ∨ ∃ a, i = .jumpIfNonZero a ∧ s.r = 0#32)) := by
  rw [exec_next_iff] at h
  cases i with
  | nop | load _ | dec => exact .inr (by simp [h])
  | jumpIfNonZero a =>
    by_cases hr : s.r = 0#32
    · exact .inr (by simp [h, hr])
    · exact .inl (by simp [h, hr])
  | jump a => exact .inl (by simp [h])
  | halt => exact absurd rfl hi

/-- An advance by one leaves the program from its last index alone; a `pc + 1` that wraps is 0, which is
inside a program that has an index (R182). -/
theorem succ_eq_length_of_advance {pc : Word} {n : Nat} (hin : pc.toNat < n)
    (hout : n ≤ (pc + 1#32).toNat) : pc.toNat + 1 = n := by
  rw [BitVec.toNat_add] at hout
  have hone : (1#32).toNat = 1 := rfl
  omega

/-! ### Edges without a step -/

/-- No step happens under reset, without `step_en` or in a terminal state (R100). -/
theorem stepHappens_eq_false_iff (p : Pins) (s : State) :
    stepHappens p s = false ↔ p.rst = true ∨ p.stepEn = false ∨ terminal s.st = true := by
  rw [terminal_iff, ← Bool.not_eq_true, stepHappens_iff]
  simp only [not_and_or, Bool.not_eq_false, Bool.not_eq_true, ne_eq]

/-- Without a step nothing is traced (R195). -/
theorem tracePort_of_no_step {p : Pins} {s : State} (hs : stepHappens p s = false) :
    tracePort p s = none := by
  simp [tracePort, hs]

/-! ### The trace record -/

/-- A record is driven iff a step executes an instruction, and then it is taken from the state the
instruction leaves (R195). -/
theorem tracePort_eq_some_iff (p : Pins) (s : State) (e : TraceRecord) :
    tracePort p s = some e ↔
      ∃ w i t, stepHappens p s = true ∧ fetchWord s.rom s.pc = some w ∧ decode w = .instr i ∧
        exec i s = .next t ∧ e = traceRecordOf s w t := by
  constructor
  · intro h
    have hs : stepHappens p s = true := by
      by_contra hn
      rw [tracePort_of_no_step (by simpa using hn)] at h
      cases h
    cases hw : fetchWord s.rom s.pc with
    | none => rw [(edge_of_miss hs hw).2] at h; cases h
    | some w =>
      cases hd : decode w with
      | illegal op =>
        rw [(edge_of_illegal hs hw rfl (opField_of_decode_illegal hd)).2] at h
        cases h
      | instr i =>
        obtain ⟨t, he⟩ := exec_total i s
        rw [(edge_of_instr hs hw hd he).2] at h
        exact ⟨w, i, t, hs, rfl, hd, he, (Option.some.inj h).symm⟩
  · rintro ⟨w, i, t, hs, hw, hd, he, rfl⟩
    exact (edge_of_instr hs hw hd he).2

/-- `trace_valid = 1` iff a step happens and fetches an opcode 0 to 5 (R195). -/
theorem traceValid_iff (p : Pins) (s : State) :
    traceValid p s = true ↔
      stepHappens p s = true ∧ ∃ w, fetchWord s.rom s.pc = some w ∧ (opField w).toNat ≤ 5 := by
  simp only [traceValid, Option.isSome_iff_exists, tracePort_eq_some_iff, ← exists_decode_instr_iff]
  constructor
  · rintro ⟨_, w, i, _, hs, hw, hd, -, -⟩
    exact ⟨hs, w, hw, i, hd⟩
  · rintro ⟨hs, w, hw, i, hd⟩
    obtain ⟨t, he⟩ := exec_total i s
    exact ⟨_, w, i, t, hs, hw, hd, he, rfl⟩

/-- The kind of a step that executes an instruction: HALT for `Halt`, else by its next PC (R196). -/
theorem traceKindOf_exec {i : Instr} {s t : State} (hrun : s.st = .running)
    (h : exec i s = .next t) (oldPc : Word) :
    traceKindOf oldPc t =
      if i = .halt then .halt else if t.pc = oldPc + 1#32 then .seq else .branch := by
  by_cases hi : i = .halt
  · subst hi
    rw [(exec_next_iff _ _ _).1 h]
    simp [traceKindOf]
  · rw [if_neg hi, traceKindOf_running ((exec_st_of_ne_halt h hi).trans hrun)]

/-! ### The obligations of the family -/

/-- Settles O17: an edge without reset keeps a terminal state, so a sequence of them does; any sequence
answers, and the reset that follows it goes to RUNNING. -/
theorem terminalStatesLastUntilReset : Obligations.TerminalStatesLastUntilReset := by
  unfold Obligations.TerminalStatesLastUntilReset
  refine fun ps s ht => ⟨clockEdges_of_terminal ht, fun p hr => ?reset⟩
  case reset =>
    obtain ⟨u, hu⟩ := clockEdges_total ps s
    refine ⟨resetTo p.initR u, ?_, resetTo_st _ _⟩
    rw [clockEdges_append hu, clockEdges_cons (clockEdge_reset hr u)]
    rfl

/-- Settles O21: the cause is `clockEdge_step_outOfRange_iff`; a step that continues has executed an
instruction, whose ways to write PC are `exec_pc_ways`; the empty program has no index below `N`. -/
theorem outOfRangeCauseAndWays : Obligations.OutOfRangeCauseAndWays := by
  unfold Obligations.OutOfRangeCauseAndWays
  refine ⟨fun s hrun => ⟨?cause, fun hpc => ?stops⟩, fun s t hrun hin h ht hout => ?ways,
    fun v => ?empty⟩
  case cause =>
    obtain ⟨u, hu⟩ := clockEdge_total stepRequest s
    rw [← clockEdge_step_outOfRange_iff (stepHappens_stepRequest hrun) hu]
    constructor
    · rintro ⟨t, ht, hst⟩
      cases hu.symm.trans ht
      exact hst
    · exact fun hst => ⟨u, hu, hst⟩
  case stops => exact edge_of_miss (stepHappens_stepRequest hrun) ((fetchWord_eq_none_iff _ _).2 hpc)
  case ways =>
    obtain ⟨w, i, hw, hd, hi, he⟩ := clockEdge_step_running (stepHappens_stepRequest hrun) h ht
    refine ⟨w, i, hw, hd, (exec_pc_ways he hi).imp_right fun ⟨hpc, hadvance⟩ => ⟨?_, hpc, hadvance⟩⟩
    rw [exec_rom he, hpc] at hout
    exact succ_eq_length_of_advance hin hout
  case empty => exact step_of_pc_out_of_range rfl (Nat.zero_le _)

/-- Settles O24: the conditions of the first check are those under which no step happens; on a step the
transitions of ST (`onlyListedStTransitions`) give each outcome with its opcode. -/
theorem outcomePriority : Obligations.OutcomePriority := by
  unfold Obligations.OutcomePriority
  intro p s t h
  simp only [← stepHappens_eq_false_iff]
  split_ifs with hs hpc
  · exact ⟨tracePort_of_no_step hs, fun hr => clockEdge_idle_eq hr hs h⟩
  · rw [(clockEdge_step_outOfRange_iff (by simpa using hs) h).2 hpc]
    rfl
  · rcases onlyListedStTransitions p s t h with ⟨hr, -⟩ | ⟨-, hidle, -⟩ | ⟨-, -, hstep⟩
    · exact absurd ((stepHappens_eq_false_iff p s).2 (.inl hr)) hs
    · exact absurd hidle hs
    · rcases hstep with ⟨-, hfar⟩ | ⟨w, hw, hop⟩
      · exact absurd hfar hpc
      · refine ⟨w, hw, ?_⟩
        rcases hop with ⟨hst, hle⟩ | ⟨hst, hop⟩ | ⟨hst, hop⟩
        · have hne (op : Op) (hgt : 4 < op.toNat) : opField w ≠ op := by rintro rfl; omega
          simp [hst, outcomeOf, hne 5#3 (by decide), hne 6#3 (by decide), hne 7#3 (by decide)]
        · simp [hst, outcomeOf, hop]
        · simp [hst, outcomeOf, hop]

/-- Settles O39: `traceValid_iff`, and the record is `traceRecordOf` the committed state, its kind read
off by `traceKindOf_exec`; the opcode is 5 iff the instruction is `Halt`. -/
theorem traceRecordsTheCommittedStep : Obligations.TraceRecordsTheCommittedStep := by
  unfold Obligations.TraceRecordsTheCommittedStep
  refine ⟨traceValid_iff, fun p s t w e h hw htrace => ?record, fun k => ?codes⟩
  case codes => cases k <;> decide
  case record =>
    obtain ⟨w', i, t', hs, hw', hd, he, rfl⟩ := (tracePort_eq_some_iff _ _ _).1 htrace
    cases hw.symm.trans hw'
    cases h.symm.trans (edge_of_instr hs hw hd he).1
    have hkind := traceKindOf_exec ((stepHappens_iff p s).1 hs).2.2 he s.pc
    refine ⟨rfl, rfl, rfl, rfl, rfl, ?_⟩
    rw [opField_of_decode_instr hd, ne_eq, opcodeOf_eq_five_iff]
    by_cases hi : i = .halt
    · simp [traceRecordOf, hkind, traceKindCode, hi]
    · by_cases hpc : t.pc = s.pc + 1#32
      · simp [traceRecordOf, hkind, traceKindCode, hi, hpc]
      · simp [traceRecordOf, hkind, traceKindCode, hi, hpc]

end Sys2Proof.Machine
end

/-! PROOFS. The family of 70_reset_and_hazards.md: the reset edge. -/

section
namespace Sys2Proof.Machine

/-- Settles O15: the edge is `resetTo`, and under reset no step happens, so nothing is traced. -/
theorem resetWinsOverStep : Obligations.ResetWinsOverStep := by
  unfold Obligations.ResetWinsOverStep
  intro v en s
  constructor
  · exact clockEdge_reset rfl s
  · exact tracePort_of_no_step ((stepHappens_eq_false_iff _ s).2 (.inl rfl))

end Sys2Proof.Machine
end

/-! PROOFS. The two invariants of 40_step.md and 60_exceptions.md: ILLEGAL is not reached over a
well-formed ROM, and a terminal ST tells its cause at PC. -/

section
namespace Sys2Proof.Machine

/-! ### What an edge leaves in ST -/

/-- After an edge ST is RUNNING, or nothing has changed, or the step has written ST alone, with the cause
of the value it wrote at PC (R29, R115, R186). -/
theorem clockEdge_running_or_cause {p : Pins} {s t : State} (h : clockEdge p s = .next t) :
    t.st = .running ∨ t = s ∨
    (fetchWord s.rom s.pc = none ∧ t = stop .outOfRange s) ∨
    (∃ w op, fetchWord s.rom s.pc = some w ∧ decode w = .illegal op ∧ t = stop .illegal s) ∨
    (∃ w, fetchWord s.rom s.pc = some w ∧ decode w = .instr .halt ∧ t = stop .halted s) := by
  by_cases hs : stepHappens p s = true
  · rcases clockEdge_step_cases hs h with miss | illegal | halt | ⟨_, _, -, -, -, -, hrun⟩
    · exact .inr (.inr (.inl miss))
    · exact .inr (.inr (.inr (.inl illegal)))
    · exact .inr (.inr (.inr (.inr halt)))
    · exact .inl hrun
  · rw [Bool.not_eq_true] at hs
    cases hr : p.rst with
    | true =>
      rw [clockEdge_reset hr] at h
      cases h
      exact .inl (resetTo_st _ _)
    | false => exact .inr (.inl (clockEdge_idle_eq hr hs h))

/-! ### ILLEGAL is not reached -/

/-- Every word an admitted ROM answers with is legal (R78). -/
theorem legalWord_of_fetchWord {m : Memory} {a : Word} {w : IWord} (hm : wellFormedProgram m = true)
    (hw : fetchWord m a = some w) : legalWord w = true :=
  ((wellFormedProgram_iff m).1 hm).1 w (List.mem_of_getElem? hw)

/-- No fetch from an admitted ROM decodes to `Illegal` (R78, R79). -/
theorem decode_ne_illegal_of_fetchWord {m : Memory} {a : Word} {w : IWord}
    (hm : wellFormedProgram m = true) (hw : fetchWord m a = some w) (op : Op) :
    decode w ≠ .illegal op := by
  obtain ⟨i, hi⟩ := (decode_legal_iff w).1 (legalWord_of_fetchWord hm hw)
  rw [hi]
  nofun

/-- Every edge keeps an admitted ROM and a ST that is not ILLEGAL (R78, R184). -/
theorem clockEdge_keeps_neverIllegal (p : Pins) (s t : State) (hs : NeverIllegal s)
    (h : clockEdge p s = .next t) : NeverIllegal t := by
  obtain ⟨hrom, hst⟩ := hs
  refine ⟨by rwa [clockEdge_rom h], ?_⟩
  rcases clockEdge_running_or_cause h with hrun | rfl | ⟨-, rfl⟩ | ⟨w, op, hw, hd, -⟩ | ⟨_, -, -, rfl⟩
  · rw [hrun]; nofun
  · exact hst
  · nofun
  · exact absurd hd (decode_ne_illegal_of_fetchWord hrom hw op)
  · nofun

/-! ### A terminal state tells its cause -/

/-- RUNNING needs no cause (R115). -/
theorem causeAtPc_of_running {s : State} (h : s.st = .running) : CauseAtPc s := by
  simp only [CauseAtPc, h]

/-- Every edge keeps that a terminal ST tells its cause: a step that stops leaves PC and the ROM, so what
it fetched is still there (R115, R186). -/
theorem clockEdge_keeps_causeAtPc (p : Pins) (s t : State) (hs : CauseAtPc s)
    (h : clockEdge p s = .next t) : CauseAtPc t := by
  rcases clockEdge_running_or_cause h with hrun | rfl | ⟨hw, rfl⟩ | ⟨w, op, hw, hd, rfl⟩ |
    ⟨w, hw, hd, rfl⟩
  · exact causeAtPc_of_running hrun
  · exact hs
  · exact (fetchWord_eq_none_iff _ _).1 hw
  · exact ⟨w, op, hw, hd⟩
  · exact ⟨w, hw, hd⟩

/-! ### Where both invariants begin -/

/-- In RUNNING over an admitted ROM both invariants hold (R78, R212). -/
theorem invariants_of_running {s : State} (hrom : wellFormedProgram s.rom = true)
    (hrun : s.st = .running) : NeverIllegal s ∧ CauseAtPc s :=
  ⟨⟨hrom, by rw [hrun]; nofun⟩, causeAtPc_of_running hrun⟩

/-- An admitted program has the form every ROM has (R7, R78). -/
theorem wf_of_wellFormedProgram {ws : List IWord} (h : wellFormedProgram ws = true) :
    Memory.wf ws = true :=
  (Memory.wf_iff ws).2 ((wellFormedProgram_iff ws).1 h).2

/-! ### The obligations -/

/-- Settles O31: `clockEdge_keeps_neverIllegal`; the step is the edge with a request. -/
theorem everyEdgeKeepsNeverIllegal : Obligations.EveryEdgeKeepsNeverIllegal := by
  unfold Obligations.EveryEdgeKeepsNeverIllegal
  exact ⟨clockEdge_keeps_neverIllegal, clockEdge_keeps_neverIllegal stepRequest⟩

/-- Settles O32: `clockEdge_keeps_causeAtPc`; the step is the edge with a request. -/
theorem everyEdgeKeepsCauseAtPc : Obligations.EveryEdgeKeepsCauseAtPc := by
  unfold Obligations.EveryEdgeKeepsCauseAtPc
  exact ⟨clockEdge_keeps_causeAtPc, clockEdge_keeps_causeAtPc stepRequest⟩

/-- Settles O34: induction over the run, with both invariants and the ROM itself kept by every edge. -/
theorem runsOfAdmittedRoms : Obligations.RunsOfAdmittedRoms := by
  unfold Obligations.RunsOfAdmittedRoms
  intro rom s _ h
  obtain ⟨hrom, ⟨-, hst⟩, hcause⟩ := reached_induction
    (fun u => u.rom = rom ∧ NeverIllegal u ∧ CauseAtPc u)
    (fun _ hw => ⟨rfl, invariants_of_running hw rfl⟩)
    (fun p u v ⟨hu, hn, hc⟩ he => ⟨(clockEdge_rom he).trans hu,
      clockEdge_keeps_neverIllegal p u v hn he, clockEdge_keeps_causeAtPc p u v hc he⟩) h
  exact ⟨hrom, hst, hcause⟩

/-- Settles O33: the empty ROM of `State.reset` and every loaded program are admitted, and both states are
in RUNNING. -/
theorem resetMeetsTheInvariants : Obligations.ResetMeetsTheInvariants := by
  unfold Obligations.ResetMeetsTheInvariants
  refine ⟨⟨rfl, rfl, reset_rom_wf, invariants_of_running ?empty rfl⟩, fun ws v s h => ?load⟩
  case empty => decide
  case load =>
    obtain ⟨hws, rfl⟩ := loadProgram_ok h
    exact ⟨wf_of_wellFormedProgram hws, invariants_of_running hws rfl⟩

end Sys2Proof.Machine
end

/-! PROOFS. The frame of the instructions, the step and the word it fetches: what a step runs, what it
writes, and what of the ROM it depends on. -/

section
namespace Sys2Proof

/-- A table word that is read is an instruction word of 35 bits that decodes to it (R57). -/
theorem decode_of_decodeTableWord {nbits w : Nat} {i : Instr} (h : decodeTableWord nbits w = some i) :
    decode (BitVec.ofNat 35 (w % 2 ^ nbits)) = .instr i := by
  unfold decodeTableWord at h
  split at h
  · split at h
    · next hd => cases h; exact hd
    · cases h
  · cases h

end Sys2Proof

namespace Sys2Proof.Machine

/-! ### The frame of an instruction -/

/-- `Load` and `Dec` alone write R (R110). -/
theorem exec_r_of_ne {i : Instr} {s t : State} (h : exec i s = .next t)
    (hload : ∀ imm, i ≠ .load imm) (hdec : i ≠ .dec) : t.r = s.r := by
  rw [exec_next_iff] at h
  cases i with
  | load imm => exact absurd rfl (hload imm)
  | dec => exact absurd rfl hdec
  | nop | jumpIfNonZero _ | jump _ | halt => simp [h]

/-! ### A step into a terminal state -/

/-- A step that ends in a terminal state, or is asked for in one, writes ST alone (R101, R186). -/
theorem step_eq_stop_of_terminal {s t : State} (h : step s = .next t) (ht : t.st ≠ .running) :
    t = stop t.st s := by
  by_cases hrun : s.st = .running
  · exact clockEdge_step_terminal (stepHappens_stepRequest hrun) h ht
  · rw [step_of_ne_running hrun] at h
    cases h
    rfl

/-! ### PC as a number -/

/-- The successor of an index inside a ROM of an admitted length is one more as a number (R23, D4). -/
theorem toNat_succ_of_fetchWord {m : Memory} {a : Word} {w : IWord} (hm : m.wf = true)
    (hw : fetchWord m a = some w) : (a + 1#32).toNat = a.toNat + 1 := by
  have hlen : m.length ≤ 4294967295 := (Memory.wf_iff m).1 hm
  have hlt : a.toNat < m.length := lt_of_fetchWord hw
  have hone : (1#32).toNat = 1 := rfl
  rw [BitVec.toNat_add]
  omega

/-! ### The step depends on the registers and the fetched word -/

/-- What a step does to the registers is a function of them and of the ROM's answer (R103). -/
theorem executeFetched_regs_congr (answer : Option IWord) {s u : State} (h : s.regs = u.regs) :
    ∃ t v, executeFetched answer s = .next t ∧ executeFetched answer u = .next v ∧
      t.regs = v.regs := by
  have hstop (x : RunState) : (stop x s).regs = (stop x u).regs := by
    obtain ⟨hpc, hr, -⟩ := Regs.mk.inj h
    simp only [State.regs, stop_pc, stop_r, stop_st, hpc, hr]
  cases answer with
  | none => exact ⟨_, _, rfl, rfl, hstop _⟩
  | some w =>
    cases hd : decode w with
    | illegal op => exact ⟨_, _, executeFetched_illegal hd s, executeFetched_illegal hd u, hstop _⟩
    | instr i =>
      rw [executeFetched_instr hd, executeFetched_instr hd]
      exact exec_regs_congr i h

/-- The record of a step is a function of the registers before and after it and of the word (R195). -/
theorem traceRecordOf_regs_congr {s u t v : State} (w : IWord) (h : s.regs = u.regs)
    (h' : t.regs = v.regs) : traceRecordOf s w t = traceRecordOf u w v := by
  have hpc : s.pc = u.pc := congrArg Regs.pc h
  obtain ⟨hpc', hr', hst'⟩ := Regs.mk.inj h'
  simp only [traceRecordOf, traceKindOf, hpc, hpc', hr', hst']

/-- The record of a step is a function of the registers and of the ROM's answer (R103, R195). -/
theorem traceFetched_regs_congr (answer : Option IWord) {s u : State} (h : s.regs = u.regs) :
    traceFetched answer s = traceFetched answer u := by
  cases answer with
  | none => rfl
  | some w =>
    obtain ⟨t, v, ht, hv, htv⟩ := executeFetched_regs_congr (some w) h
    simp only [traceFetched, ht, hv, traceRecordOf_regs_congr w h htv]

/-- Whether a step happens is seen from the pins and the registers (R100). -/
theorem stepHappens_regs_congr (p : Pins) {s u : State} (h : s.regs = u.regs) :
    stepHappens p s = stepHappens p u := by
  have hst : s.st = u.st := congrArg Regs.st h
  simp only [stepHappens, hst]

/-! ### The step relation over a ROM -/

/-- An edge on a state is the step relation over its ROM, which it leaves (R50). -/
theorem clockEdge_eq_next_iff (p : Pins) (s t : State) :
    clockEdge p s = .next t ↔ edgeOver s.rom p s.regs = .next t.regs ∧ t.rom = s.rom := by
  unfold clockEdge
  cases edgeOver s.rom p s.regs with
  | fault f => cases f
  | refused r => simp [overRom]
  | next g =>
    simp only [overRom, Host.Outcome.next.injEq]
    constructor
    · rintro rfl
      exact ⟨rfl, rfl⟩
    · rintro ⟨rfl, hrom⟩
      rw [← hrom, regs_withRom]

/-- The step relation over a ROM answers on all registers (R109). -/
theorem edgeOver_total (rom : Memory) (p : Pins) (g : Regs) : ∃ h, edgeOver rom p g = .next h := by
  obtain ⟨t, ht⟩ := clockEdge_total p (g.withRom rom)
  exact ⟨t.regs, ((clockEdge_eq_next_iff p _ t).1 ht).1⟩

/-- The machine over a ROM and the host's machine run alike for any number of steps (R20, R50). -/
theorem run_romMachine (rom : Memory) (v : Word) (k : Nat) (g : Regs) : ∃ h : Regs,
    Host.Core.run (romMachine rom v) k g = .next h ∧
    Host.Core.run Sys2Proof.core k (g.withRom rom) = .next (h.withRom rom) := by
  induction k generalizing g with
  | zero => exact ⟨g, rfl, rfl⟩
  | succ k ih =>
    obtain ⟨g', hg⟩ := edgeOver_total rom stepRequest g
    obtain ⟨h, hover, hcore⟩ := ih g'
    refine ⟨h, ?_, ?_⟩
    · exact (run_succ (M := romMachine rom v) hg k).trans hover
    · exact (run_succ (M := Sys2Proof.core) (clockEdge_withRom hg) k).trans hcore

/-! ### The obligations -/

/-- Settles O8, a clause per field: R, ST, PC and the ROM. -/
theorem instructionFrame : Obligations.InstructionFrame := by
  unfold Obligations.InstructionFrame
  refine fun i s t h => ⟨exec_r_of_ne h, exec_st_of_ne_halt h, fun hi => ?pc, ?length, fun a => ?words⟩
  case pc =>
    subst hi
    rw [(exec_next_iff _ _ _).1 h, stop_pc]
  case length => rw [exec_rom h]
  case words => rw [exec_rom h]

/-- Settles O20: the placed word is the one fetched, and it decodes, so it is a legal one. -/
theorem placedTableWordIsRunNext : Obligations.PlacedTableWordIsRunNext := by
  unfold Obligations.PlacedTableWordIsRunNext
  intro s nbits w i h
  have hd := decode_of_decodeTableWord h
  have hlegal := (decode_legal_iff _).2 ⟨i, hd⟩
  exact ⟨step_decoded rfl (withFetchWord_fetch s nbits w) hd, withFetchWord_wf s nbits w,
    fun hrom => withFetchWord_wellFormed s nbits w hrom hlegal⟩

/-- Settles O27: a step that stops leaves PC; one that goes on has executed an instruction, which commits
its target or advances PC from an index inside the ROM. -/
theorem pcNeverWraps : Obligations.PcNeverWraps := by
  unfold Obligations.PcNeverWraps
  intro s t hrom hrun h
  by_cases ht : t.st = .running
  · obtain ⟨w, i, hw, hd, hi, he⟩ := clockEdge_step_running (stepHappens_stepRequest hrun) h ht
    rcases exec_pc_ways he hi with (rfl | ⟨rfl, -⟩) | ⟨hpc, -⟩
    · exact .inr (.inr ⟨w, t.pc, hw, .inl hd, rfl⟩)
    · exact .inr (.inr ⟨w, t.pc, hw, .inr hd, rfl⟩)
    · exact .inr (.inl (by rw [hpc, toNat_succ_of_fetchWord hrom hw]))
  · exact .inl (by rw [step_eq_stop_of_terminal h ht, stop_pc])

/-- Settles O28 by `step_eq_stop_of_terminal`. -/
theorem terminalOutcomeIsPrecise : Obligations.TerminalOutcomeIsPrecise := by
  unfold Obligations.TerminalOutcomeIsPrecise
  intro s t h ht
  exact step_eq_stop_of_terminal h ht

/-- Settles O30: the two edges are of one kind, reset, step or neither; in a step both the state and the
record are taken from the registers and the ROM's answer. -/
theorem onlyTheFetchedWordMatters : Obligations.OnlyTheFetchedWordMatters := by
  unfold Obligations.OnlyTheFetchedWordMatters
  intro p s u h hw
  have hsu := stepHappens_regs_congr p h
  by_cases hs : stepHappens p s = true
  · have hu : stepHappens p u = true := hsu ▸ hs
    rw [clockEdge_step hs, clockEdge_step hu, tracePort_step hs, tracePort_step hu, ← hw]
    obtain ⟨t, v, ht, hv, htv⟩ := executeFetched_regs_congr (fetchWord s.rom s.pc) h
    exact ⟨t, v, ht, hv, htv, traceFetched_regs_congr _ h⟩
  · rw [Bool.not_eq_true] at hs
    have hu : stepHappens p u = false := hsu ▸ hs
    rw [tracePort_of_no_step hs, tracePort_of_no_step hu]
    cases hr : p.rst with
    | true => exact ⟨_, _, clockEdge_reset hr s, clockEdge_reset hr u, rfl, rfl⟩
    | false => exact ⟨s, u, clockEdge_idle hr hs, clockEdge_idle hr hu, h, rfl⟩

/-- Settles O44: an edge is the step relation over its ROM (`clockEdge_eq_next_iff`), and the two machines
run alike by induction on the number of steps (`run_romMachine`). -/
theorem romIsAnArgumentOfTheStep : Obligations.RomIsAnArgumentOfTheStep := by
  unfold Obligations.RomIsAnArgumentOfTheStep
  exact ⟨clockEdge_eq_next_iff, run_romMachine⟩

/-- Settles O19: `step_decoded`, and every edge answers. -/
theorem stepRunsTheDecodedInstruction : Obligations.StepRunsTheDecodedInstruction := by
  unfold Obligations.StepRunsTheDecodedInstruction
  exact ⟨fun _ _ _ => step_decoded, clockEdge_total stepRequest⟩

end Sys2Proof.Machine
end

/-! PROOFS. The construction check of 30_encoding.md R78, and the words of the spec's decode vectors. -/

section
namespace Sys2Proof

/-- A legal word has an opcode of at most 5 (R78). -/
theorem legalWord_iff (w : IWord) : legalWord w = true ↔ (opField w).toNat ≤ 5 :=
  decide_eq_true_iff

/-- The check finds the first word that is not legal, counting from `start` (R78). -/
theorem firstIllegalFrom_eq_findIdx? (start : Nat) (ws : List IWord) :
    firstIllegalFrom start ws = (ws.findIdx? fun w => !legalWord w).map (· + start) := by
  induction ws generalizing start with
  | nil => rfl
  | cons w ws ih =>
    rw [firstIllegalFrom, List.findIdx?_cons, ih]
    by_cases h : legalWord w = true
    · simp [h, Function.comp_def, Nat.add_assoc, Nat.add_comm 1]
    · simp [h]

/-- The check refuses by an index iff that is the first word with opcode 6 or 7 (R78). -/
theorem programError?_eq_illegalWord_iff (ws : List IWord) (k : Nat) :
    programError? ws = some (.illegalWord k) ↔ firstIllegalFrom 0 ws = some k := by
  unfold programError?
  cases firstIllegalFrom 0 ws with
  | some i => simp
  | none => by_cases h : ws.length ≤ Config.maxProgramLength <;> simp [h]

/-- The first word that is not legal, by its index and the words before it (R78). -/
theorem firstIllegalFrom_eq_some_iff (ws : List IWord) (k : Nat) :
    firstIllegalFrom 0 ws = some k ↔
      (∃ w, ws[k]? = some w ∧ 5 < (opField w).toNat) ∧
        ∀ j w, j < k → ws[j]? = some w → (opField w).toNat ≤ 5 := by
  simp only [firstIllegalFrom_eq_findIdx?, Nat.add_zero, Option.map_id_fun', id_eq,
    List.findIdx?_eq_some_iff_getElem, List.getElem?_eq_some_iff, Bool.not_eq_true',
    ← Bool.not_eq_true, legalWord_iff, Nat.not_le, Nat.not_lt]
  constructor
  · rintro ⟨hk, hop, hbefore⟩
    exact ⟨⟨_, ⟨hk, rfl⟩, hop⟩, fun j _ hj ⟨_, hw⟩ => hw ▸ hbefore j hj⟩
  · rintro ⟨⟨_, ⟨hk, rfl⟩, hop⟩, hbefore⟩
    exact ⟨hk, hop, fun j hj => hbefore j _ hj ⟨hj.trans hk, rfl⟩⟩

/-- A program that is not admitted is refused by some error (R78). -/
theorem programError?_of_not_wellFormed {ws : List IWord} (h : wellFormedProgram ws = false) :
    ∃ e, programError? ws = some e :=
  Option.isSome_iff_exists.1 (Option.isNone_eq_false_iff.1 h)

end Sys2Proof

namespace Sys2Proof.Machine

/-- A refused program is not loaded, by the same error (R78). -/
theorem loadProgram_error {ws : List IWord} {e : ProgramError} (h : programError? ws = some e)
    (v : Word) : loadProgram ws v = .error e := by
  simp only [loadProgram, h]

/-- An admitted program loads into the state after reset over it (R214). -/
theorem loadProgram_of_wellFormed {ws : List IWord} (h : wellFormedProgram ws = true) (v : Word) :
    loadProgram ws v = .ok { pc := 0#32, r := v, st := .running, rom := ws } := by
  have hnone : programError? ws = none := Option.isNone_iff_eq_none.1 h
  simp only [loadProgram, hnone]

/-! ### The obligations -/

/-- Settles O13: the index by `firstIllegalFrom_eq_some_iff`, the admitted programs by
`wellFormedProgram_iff`; the check stands before loading, building and every run. -/
theorem constructionRefusesByIndex : Obligations.ConstructionRefusesByIndex := by
  unfold Obligations.ConstructionRefusesByIndex
  refine fun ws => ⟨fun k => ?index, ?admitted, fun v h => ?refused, fun v h => ?loaded⟩
  case index => exact (programError?_eq_illegalWord_iff ws k).trans (firstIllegalFrom_eq_some_iff ws k)
  case admitted =>
    have hmax : Config.maxProgramLength = 2 ^ 32 - 1 := rfl
    rw [wellFormedProgram_iff, hmax]
    simp only [legalWord_iff]
  case refused =>
    obtain ⟨e, he⟩ := programError?_of_not_wellFormed h
    refine ⟨e, loadProgram_error he v, buildMachine_error he v, fun s hs => ?_⟩
    rw [reached_wellFormed hs] at h
    cases h
  case loaded => exact loadProgram_of_wellFormed h v

/-- Settles O11: each word's opcode and operand are its leading digit and the other eight. -/
theorem specWordsDecodeAsWritten : Obligations.SpecWordsDecodeAsWritten := by
  unfold Obligations.SpecWordsDecodeAsWritten
  exact ⟨rfl, rfl, rfl, rfl, rfl, rfl, rfl, rfl⟩

end Sys2Proof.Machine
end

/-! PROOFS. The other forms of the machine: the datapath of 40_step.md R111 and R112, the FETCH and
EXECUTE realisation of 70_reset_and_hazards.md R222, and COREs that share a ROM (20_memory.md R67). -/

section
namespace Sys2Proof.Machine

/-! ### The datapath -/

/-- The registers the multiplexers and write enables give when a step happens (R111, R112). -/
def datapathStep (valid : Bool) (data : IWord) (g : Regs) : Regs :=
  { pc := pcNext (controlOf (opField data)) valid (argField data) g.r g.pc
    r := rNext (controlOf (opField data)) valid (argField data) g.r
    st := stNext (controlOf (opField data)) valid }

/-- The edge of the block is a reset, a step or neither, as the edge of CORE is (R100, R210). -/
theorem datapathEdge_eq (p : Pins) (valid : Bool) (data : IWord) (s : State) :
    datapathEdge p valid data s.regs =
      if p.rst then resetRegs p.initR
      else if stepHappens p s then datapathStep valid data s.regs else s.regs := by
  by_cases hr : p.rst = true
  · simp [datapathEdge, resetRegs, hr]
  · have hs : stepHappens p s = true ↔ p.stepEn = true ∧ s.st = .running := by
      simp [stepHappens_iff, hr]
    rw [datapathEdge, if_neg hr, if_neg hr]
    exact if_congr hs.symm rfl rfl

/-- On a miss the block writes OUT_OF_RANGE to ST alone (R102, R112). -/
theorem datapathStep_miss (data : IWord) (s : State) :
    (datapathStep false data s.regs).withRom s.rom = stop .outOfRange s := by
  simp only [datapathStep, pcNext_miss, rNext_miss, stNext_miss]
  rfl

/-- At an illegal word the block writes ILLEGAL to ST alone (R81, R184). -/
theorem datapathStep_illegal {w : IWord} {op : Op} (h : decode w = .illegal op) (s : State) :
    (datapathStep true w s.regs).withRom s.rom = stop .illegal s := by
  rcases opField_of_decode_illegal h with hop | hop <;> rw [datapathStep, hop] <;> rfl

/-- At an instruction the block gives what the instruction leaves (R81, R105, R111, R112). -/
theorem datapathStep_instr {w : IWord} {i : Instr} (h : decode w = .instr i) {s : State}
    (hrun : s.st = .running) : exec i s = .next ((datapathStep true w s.regs).withRom s.rom) := by
  obtain ⟨hop, harg⟩ := (decode_eq_instr_iff w i).1 h
  obtain ⟨pc, r, st, rom⟩ := s
  subst hrun
  rw [datapathStep, hop]
  cases i with
  | nop | dec | halt => rfl
  | load _ | jump _ => rw [harg rfl]; rfl
  | jumpIfNonZero a =>
    rw [harg rfl]
    by_cases hr : r = 0#32
    · rw [exec_jumpIfNonZero_of_eq hr]
      subst hr
      rfl
    · rw [exec_jumpIfNonZero_of_ne hr]
      simp [opcodeOf, operandOf, controlOf, pcNext, rNext, stNext, Regs.withRom, hr]

/-- Whatever the ROM answers, the block gives what the step does (R109, R111, R112). -/
theorem executeFetched_eq_datapathStep {s : State} {valid : Bool} {data : IWord}
    (hrun : s.st = .running) (hvalid : valid = true ↔ s.pc.toNat < s.rom.length)
    (hdata : valid = true → s.rom[s.pc.toNat]? = some data) :
    executeFetched (fetchWord s.rom s.pc) s =
      .next ((datapathStep valid data s.regs).withRom s.rom) := by
  cases valid with
  | false =>
    have hw : fetchWord s.rom s.pc = none :=
      (fetchWord_eq_none_iff _ _).2 (not_lt.1 fun h => nomatch hvalid.2 h)
    rw [hw, datapathStep_miss]
    rfl
  | true =>
    have hw : fetchWord s.rom s.pc = some data := hdata rfl
    rw [hw]
    cases hd : decode data with
    | illegal op => rw [executeFetched_illegal hd, datapathStep_illegal hd]
    | instr i => rw [executeFetched_instr hd, datapathStep_instr hd hrun]

/-! ### The FETCH and EXECUTE realisation -/

/-- Ready is the FETCH phase (log 14). -/
theorem twoCycleReady_iff (c : TwoCycle) : twoCycleReady c = true ↔ c.phase = .fetch :=
  decide_eq_true_iff

/-- In either phase a reset edge resets CORE untraced and leaves the realisation in FETCH (R210). -/
theorem twoCycle_reset {q : Pins} (hr : q.rst = true) (c : TwoCycle) :
    twoCycleEdge q c = .next { core := resetTo q.initR c.core, phase := .fetch } ∧
    twoCycleTrace q c = none := by
  refine ⟨by simp [twoCycleEdge, hr], ?_⟩
  unfold twoCycleTrace
  cases c.phase <;> simp [hr]

/-- In FETCH an accepted request registers the ROM's answer and leaves CORE (R222). -/
theorem twoCycle_accept {p : Pins} {s : State} (hs : stepHappens p s = true) :
    twoCycleEdge p ⟨s, .fetch⟩ = .next ⟨s, .execute (fetchWord s.rom s.pc)⟩ := by
  obtain ⟨hr, -, -⟩ := (stepHappens_iff p s).1 hs
  simp [twoCycleEdge, hr, hs]

/-- In FETCH an edge on which no step happens does what it does to CORE (R101, R210). -/
theorem twoCycle_no_request {p : Pins} {s t : State} (hs : stepHappens p s = false)
    (h : clockEdge p s = .next t) : twoCycleEdge p ⟨s, .fetch⟩ = .next ⟨t, .fetch⟩ := by
  cases hr : p.rst with
  | true =>
    cases h.symm.trans (clockEdge_reset hr s)
    exact (twoCycle_reset hr _).1
  | false =>
    cases clockEdge_idle_eq hr hs h
    simp [twoCycleEdge, hr, hs]

/-- In EXECUTE an edge without reset commits the step on the registered answer, with its record (R222). -/
theorem twoCycle_execute {q : Pins} (hr : q.rst = false) {answer : Option IWord} {s t : State}
    (h : executeFetched answer s = .next t) :
    twoCycleEdge q ⟨s, .execute answer⟩ = .next ⟨t, .fetch⟩ ∧
    twoCycleTrace q ⟨s, .execute answer⟩ = traceFetched answer s := by
  simp [twoCycleEdge, twoCycleTrace, hr, h]

/-! ### COREs that share a ROM -/

/-- The step relation over a ROM is a function of the registers (R109). -/
theorem exists_edgeOver_eq (rom : Memory) (p : Pins) :
    ∃ f : Regs → Regs, ∀ g, edgeOver rom p g = .next (f g) :=
  Classical.skolem.1 (edgeOver_total rom p)

/-- An edge of one CORE is the step relation on its place in the list of registers (R67). -/
theorem sharedEdge_eq_modify {p : Pins} {rom : Memory} {f : Regs → Regs}
    (hf : ∀ g, edgeOver rom p g = .next (f g)) (k : Nat) (cores : List Regs) :
    sharedEdge k p ⟨rom, cores⟩ = .next ⟨rom, cores.modify k f⟩ := by
  rw [List.modify_eq_set_getElem?]
  unfold sharedEdge
  cases hk : cores[k]? with
  | none => simp
  | some g => simp [hf]

/-! ### The obligations -/

/-- Settles O35: the kinds of edge are the same, and in a step the block gives what the step does. -/
theorem datapathComputesTheEdge : Obligations.DatapathComputesTheEdge := by
  unfold Obligations.DatapathComputesTheEdge
  intro p s valid data hvalid hdata
  rw [clockEdge_eq, datapathEdge_eq]
  split_ifs with hr hs
  · rfl
  · exact executeFetched_eq_datapathStep ((stepHappens_iff p s).1 hs).2.2 hvalid hdata
  · rfl

/-- Settles O40, an edge per phase and kind: accepted, executed, reset in EXECUTE, no request. -/
theorem twoCycleRealisationIsStepEquivalent : Obligations.TwoCycleRealisationIsStepEquivalent := by
  unfold Obligations.TwoCycleRealisationIsStepEquivalent
  refine ⟨fun ⟨s, phase⟩ hready => ?_, fun c q hr => twoCycle_reset hr c⟩
  obtain rfl : phase = .fetch := (twoCycleReady_iff _).1 hready
  refine ⟨fun p hs => ?request, fun p hs => ?noRequest⟩
  case request =>
    obtain ⟨t, ht⟩ := executeFetched_total (fetchWord s.rom s.pc) s
    refine ⟨t, _, (clockEdge_step hs).trans ht, twoCycle_accept hs, rfl, rfl, rfl, fun q hr => ?_,
      fun q hr => twoCycle_reset hr _⟩
    rw [tracePort_step hs]
    exact twoCycle_execute hr ht
  case noRequest =>
    obtain ⟨t, ht⟩ := clockEdge_total p s
    exact ⟨t, ht, twoCycle_no_request hs ht, rfl⟩

/-- Settles O41: an edge of a CORE modifies its own place in the list of registers, and changes at two
places commute. -/
theorem sharingCoresDoNotInteract : Obligations.SharingCoresDoNotInteract := by
  unfold Obligations.SharingCoresDoNotInteract
  rintro ⟨rom, cores⟩ j k p q hjk
  obtain ⟨f, hf⟩ := exists_edgeOver_eq rom p
  obtain ⟨e, he⟩ := exists_edgeOver_eq rom q
  refine ⟨_, _, _, sharedEdge_eq_modify hf j cores, rfl, List.getElem?_modify_ne f cores hjk,
    fun g hg => ?alone, sharedEdge_eq_modify he k cores, sharedEdge_eq_modify he k _, ?commute⟩
  case alone => exact ⟨_, clockEdge_withRom (hf g), by simp [hg]⟩
  case commute => rw [sharedEdge_eq_modify hf, List.modify_modify_ne f e cores hjk]

end Sys2Proof.Machine
end

/-! PROOFS. The assembler's operands (30_encoding.md R82): their ranges and their two spellings. -/

section
namespace Sys2Proof.Machine

/-! ### The ranges -/

/-- An immediate is a decimal of 32 signed bits, which are its bits (R82). -/
theorem immediateBits_decimal_eq_some_iff (v : Int) (b : Word) :
    immediateBits (.decimal v) = some b ↔
      (-2147483648 ≤ v ∧ v ≤ 2147483647) ∧ BitVec.ofInt 32 v = b := by
  rw [immediateBits, Option.ite_none_right_eq_some, Option.some.injEq]

/-- A target is a decimal of 32 unsigned bits, which are its bits (R82). -/
theorem targetBits_decimal_eq_some_iff (v : Int) (b : Word) :
    targetBits (.decimal v) = some b ↔ (0 ≤ v ∧ v ≤ 4294967295) ∧ BitVec.ofInt 32 v = b := by
  rw [targetBits, Option.ite_none_right_eq_some, Option.some.injEq]

/-- A hex literal gives its bits if they are at most 32 (R82). -/
theorem targetBits_hex_eq_some_iff (v : Nat) (b : Word) :
    targetBits (.hex v) = some b ↔ v < 2 ^ 32 ∧ BitVec.ofNat 32 v = b := by
  rw [targetBits, Option.ite_none_right_eq_some, Option.some.injEq]
  exact and_congr_left fun _ => Nat.lt_succ_iff.symm

/-! ### Blanks and letters -/

/-- No letter is a blank. -/
theorem not_isBlank_of_isLetter {c : Char} (h : isLetter c = true) : ¬ isBlank c = true := by
  intro hb
  simp only [isBlank, Bool.or_eq_true, decide_eq_true_eq] at hb
  rcases hb with ((rfl | rfl) | rfl) | rfl <;> exact absurd h (by decide)

/-- Trimming drops the blanks at the front and then those at the back. -/
theorem trimBlanks_eq (cs : List Char) :
    trimBlanks cs = (cs.dropWhile isBlank).rdropWhile isBlank := rfl

/-- A text whose first and last characters are no blanks is left as it is. -/
theorem trimBlanks_eq_self {cs : List Char} (hne : cs ≠ []) (hhead : ¬ isBlank (cs.head hne) = true)
    (hlast : ¬ isBlank (cs.getLast hne) = true) : trimBlanks cs = cs := by
  have hfront : cs.dropWhile isBlank = cs :=
    List.dropWhile_eq_self_iff.2 fun _ => by rwa [List.head_eq_getElem] at hhead
  rw [trimBlanks_eq, hfront]
  exact List.rdropWhile_eq_self_iff.2 fun _ => hlast

/-- A trimmed text ends in no blank. -/
theorem not_isBlank_getLast {cs : List Char} (hne : cs ≠ []) (h : trimBlanks cs = cs) :
    ¬ isBlank (cs.getLast hne) = true := by
  have hlast := List.rdropWhile_last_not isBlank (cs.dropWhile isBlank)
  rw [← trimBlanks_eq] at hlast
  simpa only [h] using hlast (h.symm ▸ hne)

/-! ### A mnemonic with an operand -/

/-- Trimmed text after a mnemonic is read as its operand where it ends in no blank and begins with no
letter (R82). -/
theorem parseInstr_append {m rest : List Char} (hm : m ≠ []) (hletters : m.all isLetter = true)
    (hrest : rest ≠ []) (hhead : ¬ isLetter (rest.head hrest) = true)
    (hlast : ¬ isBlank (rest.getLast hrest) = true) {operand : Option (List Char)}
    (hop : operandText rest = .ok operand) : parseInstr (m ++ rest) = instrOf m operand := by
  rw [List.all_eq_true] at hletters
  have htrim : trimBlanks (m ++ rest) = m ++ rest := by
    refine trimBlanks_eq_self (List.append_ne_nil_of_left_ne_nil hm rest) ?_ ?_
    · rw [List.head_append_of_ne_nil hm]
      exact not_isBlank_of_isLetter (hletters _ (List.head_mem hm))
    · rwa [List.getLast_append_of_ne_nil _ hrest]
  have hdrop : rest.dropWhile isLetter = rest :=
    List.dropWhile_eq_self_iff.2 fun _ => by rwa [List.head_eq_getElem] at hhead
  have htake : rest.takeWhile isLetter = [] :=
    List.takeWhile_eq_nil_iff.2 fun _ => by rwa [List.head_eq_getElem] at hhead
  unfold parseInstr
  simp only [htrim, List.dropWhile_append_of_pos hletters, List.takeWhile_append_of_pos hletters,
    hdrop, htake, hop, List.append_nil]

/-- An operand after a space is read without the space (R82). -/
theorem parseInstr_space {m lit : List Char} (hm : m ≠ []) (hletters : m.all isLetter = true)
    (hne : lit ≠ []) (htrim : trimBlanks lit = lit) :
    parseInstr (m ++ ' ' :: lit) = instrOf m (some lit) := by
  refine parseInstr_append hm hletters (List.cons_ne_nil _ _) ?letter ?blank ?operand
  case letter => simp [isLetter]
  case blank => rw [List.getLast_cons hne]; exact not_isBlank_getLast hne htrim
  case operand => simp [operandText, isBlank, htrim]

/-- An operand in parentheses is read without them (R82). -/
theorem parseInstr_parens {m : List Char} (hm : m ≠ []) (hletters : m.all isLetter = true)
    (lit : List Char) : parseInstr (m ++ '(' :: lit ++ [')']) = instrOf m (some lit) := by
  rw [List.append_assoc]
  refine parseInstr_append hm hletters (List.cons_ne_nil _ _) ?letter ?blank ?operand
  case letter => simp [isLetter]
  case blank => simp [isBlank]
  case operand => simp [operandText]

/-- `Nop`, `Dec` and `Halt` refuse a written operand (R82). -/
theorem instrOf_plain {m : List Char} (hm : m = "Nop".toList ∨ m = "Dec".toList ∨ m = "Halt".toList)
    (lit : List Char) : instrOf m (some lit) = .error .operandUnexpected := by
  rcases hm with rfl | rfl | rfl <;> rfl

/-! ### The obligations -/

/-- Settles O42: the accepted literals are in range, and within it the bits have the literal's value. -/
theorem assemblerOperandRanges : Obligations.AssemblerOperandRanges := by
  unfold Obligations.AssemblerOperandRanges
  simp only [immediateBits_decimal_eq_some_iff, targetBits_decimal_eq_some_iff,
    targetBits_hex_eq_some_iff, exists_and_left, exists_eq', and_true, implies_true, true_and]
  refine ⟨fun v b ⟨hv, hb⟩ => ?signed, fun v b ⟨hv, hb⟩ => ?unsigned,
    fun v => ⟨rfl, fun b ⟨hv, hb⟩ => ?hex⟩⟩
  case signed => rw [← hb]; exact BitVec.toInt_ofInt_eq_self (by decide) hv.1 (by omega)
  case unsigned => rw [← hb, BitVec.toNat_ofInt]; omega
  case hex => rw [← hb]; exact Nat.mod_eq_of_lt hv

/-- Settles O43: both spellings are read as the mnemonic with that operand (`parseInstr_space`,
`parseInstr_parens`), which `Nop`, `Dec` and `Halt` refuse. -/
theorem operandSpellingsAgree : Obligations.OperandSpellingsAgree := by
  unfold Obligations.OperandSpellingsAgree
  intro lit hne htrim
  refine ⟨fun m hm => ?agree, fun m hm => ?refused⟩
  case agree =>
    obtain ⟨hmne, hletters⟩ : m ≠ [] ∧ m.all isLetter = true := by
      rcases hm with rfl | rfl | rfl <;> decide
    rw [parseInstr_space hmne hletters hne htrim, parseInstr_parens hmne hletters lit]
  case refused =>
    obtain ⟨hmne, hletters⟩ : m ≠ [] ∧ m.all isLetter = true := by
      rcases hm with rfl | rfl | rfl <;> decide
    rw [parseInstr_space hmne hletters hne htrim, parseInstr_parens hmne hletters lit,
      instrOf_plain hm]
    exact ⟨rfl, rfl⟩

end Sys2Proof.Machine
end
